-- ==== Sys2Proof/Word.lean ====
section
/-! DEFINITION. The widths of the machine (R6, R7, R70, R78) and nothing else. -/

namespace Sys2Proof

/-- An 8-bit value: a byte of `SEQ`, a byte lane, an opcode. -/
abbrev Byte := BitVec 8

/-- A 16-bit value: a char element, the operand of SHH. -/
abbrev Half := BitVec 16

/-- A 32-bit value: `off`, `len`, a 32-bit integer element. -/
abbrev Quad := BitVec 32

/-- A 64-bit value: the accumulator, a table entry, a mods entry, the polynomial constant (R6 `WIDTH`). -/
abbrev Word := BitVec 64

/-- A 72-bit command word `cmd[71:0]` (R70). -/
abbrev Cmd := BitVec 72

end Sys2Proof
end

