-- ==== Sys2Proof/Syntax.lean ====
section
/-! DEFINITION. The seven commands of FPE-C version 1 (R2, R75), one constructor per row of the opcode
map, each with the operand fields its format gives it (R71). -/

namespace Sys2Proof

/-- A command. Every operand is unsigned at its own width (R72). -/
inductive Instr where
  /-- LDW, opcode 0x01, format Q: load the accumulator (R122). -/
  | ldw (v : Word)
  /-- SHB, opcode 0x02, format B: shift a head byte in (R123). -/
  | shb (b : Byte)
  /-- SHH, opcode 0x03, format H: shift a head char in (R124). -/
  | shh (c : Half)
  /-- FOLDW, opcode 0x04, format Q: the word step (R125). -/
  | foldw (v : Word)
  /-- HASHB, opcode 0x08, format S: hash a range of `SEQ` (R140, R141). -/
  | hashb (off len : Quad)
  /-- RDW, opcode 0x10, format N: read the accumulator (R180). -/
  | rdw
  /-- RDSTAT, opcode 0x11, format N: read the status register (R181). -/
  | rdstat
  deriving DecidableEq, Repr

end Sys2Proof
end

