-- ==== Sys2Proof/WellFormed.lean ====
section
/-! DEFINITION. When an operand fits its field (R71, R83). An `Instr` carries its operands at the widths
of R71, so every `Instr` is well formed; the check has content for an operand that is still a number,
which is what the assembler of R83 is given. -/

namespace Sys2Proof

/-- The number `n` fits a field of `width` bits: "an operand must fit its field or the line is refused
by the assembler (it is never truncated)" (R83). -/
def fitsField (width n : Nat) : Bool := decide (n < 2 ^ width)

/-- Every operand fits the field R71 gives it: 64 bits for LDW and FOLDW, 8 for SHB, 16 for SHH, 32 and
32 for HASHB; RDW and RDSTAT have none. -/
def Instr.wellFormed : Instr → Bool
  | .ldw v => fitsField 64 v.toNat
  | .shb b => fitsField 8 b.toNat
  | .shh c => fitsField 16 c.toNat
  | .foldw v => fitsField 64 v.toNat
  | .hashb off len => fitsField 32 off.toNat && fitsField 32 len.toNat
  | .rdw => true
  | .rdstat => true

end Sys2Proof
end

