-- ==== Sys2Proof/Decode.lean ====
section
/-! DEFINITION. Decoding and encoding of the 72-bit command word: the fields of R70 and R71, the opcode
map of R75, the illegal words of R82. -/

namespace Sys2Proof

/-! ### Fields of a command word (R70, R71) -/

/-- `op = cmd[71:64]`. -/
def opOf (c : Cmd) : Byte := c.extractLsb' 64 8

/-- `imm = cmd[63:0]`, the operand `v` of format Q. -/
def immOf (c : Cmd) : Word := c.extractLsb' 0 64

/-- `b = cmd[7:0]` of format B. -/
def byteOf (c : Cmd) : Byte := c.extractLsb' 0 8

/-- `c = cmd[15:0]` of format H. -/
def halfOf (c : Cmd) : Half := c.extractLsb' 0 16

/-- `off = cmd[63:32]` of format S. -/
def offOf (c : Cmd) : Quad := c.extractLsb' 32 32

/-- `len = cmd[31:0]` of format S. -/
def lenOf (c : Cmd) : Quad := c.extractLsb' 0 32

/-! ### The opcode map (R75) -/

/-- A word spells the command of a row exactly when `(cmd & mask) = match`. -/
abbrev spells (mtch mask c : Cmd) : Prop := c &&& mask = mtch

/-- The opcode of each command (R75). -/
def opcodeOf : Instr → Byte
  | .ldw _ => 0x01#8
  | .shb _ => 0x02#8
  | .shh _ => 0x03#8
  | .foldw _ => 0x04#8
  | .hashb _ _ => 0x08#8
  | .rdw => 0x10#8
  | .rdstat => 0x11#8

/-- The `match` and `mask` columns of R75, one pair per row, in the table's order: LDW, SHB, SHH, FOLDW,
HASHB, RDW, RDSTAT. -/
def opcodeRows : List (Cmd × Cmd) :=
  [ (0x010000000000000000#72, 0xFF0000000000000000#72),
    (0x020000000000000000#72, 0xFFFFFFFFFFFFFFFF00#72),
    (0x030000000000000000#72, 0xFFFFFFFFFFFFFF0000#72),
    (0x040000000000000000#72, 0xFF0000000000000000#72),
    (0x080000000000000000#72, 0xFF0000000000000000#72),
    (0x100000000000000000#72, 0xFFFFFFFFFFFFFFFFFF#72),
    (0x110000000000000000#72, 0xFFFFFFFFFFFFFFFFFF#72) ]

/-- The seven assigned opcodes; the other 249 values spell no command (R82 (a)). -/
def assignedOpcodes : List Byte := [0x01#8, 0x02#8, 0x03#8, 0x04#8, 0x08#8, 0x10#8, 0x11#8]

/-- Why a word spells no command (R82). Both raise IllegalCommand with the word's opcode byte (R201). -/
inductive IllegalWord where
  /-- (a): the opcode is none of the seven. -/
  | unassignedOpcode (op : Byte)
  /-- (b), (c), (d): a must-be-zero bit is 1 in an SHB, SHH, RDW or RDSTAT. -/
  | mustBeZero (op : Byte)
  deriving DecidableEq, Repr

/-- Decoding: total on every 72-bit word; each test is the `match` and `mask` of its row (R75), a word
that matches no row is rejected by name (R82). -/
def decode (c : Cmd) : Except IllegalWord Instr :=
  if spells 0x010000000000000000#72 0xFF0000000000000000#72 c then .ok (.ldw (immOf c))
  else if spells 0x020000000000000000#72 0xFFFFFFFFFFFFFFFF00#72 c then .ok (.shb (byteOf c))
  else if spells 0x030000000000000000#72 0xFFFFFFFFFFFFFF0000#72 c then .ok (.shh (halfOf c))
  else if spells 0x040000000000000000#72 0xFF0000000000000000#72 c then .ok (.foldw (immOf c))
  else if spells 0x080000000000000000#72 0xFF0000000000000000#72 c then .ok (.hashb (offOf c) (lenOf c))
  else if spells 0x100000000000000000#72 0xFFFFFFFFFFFFFFFFFF#72 c then .ok .rdw
  else if spells 0x110000000000000000#72 0xFFFFFFFFFFFFFFFFFF#72 c then .ok .rdstat
  else if opOf c ∈ assignedOpcodes then .error (.mustBeZero (opOf c))
  else .error (.unassignedOpcode (opOf c))

/-- Encoding: the opcode byte above the 64 operand bits of R71, must-be-zero bits 0. -/
def encode : Instr → Cmd
  | .ldw v => 0x01#8 ++ v
  | .shb b => 0x02#8 ++ (0#56 ++ b)
  | .shh c => 0x03#8 ++ (0#48 ++ c)
  | .foldw v => 0x04#8 ++ v
  | .hashb off len => 0x08#8 ++ (off ++ len)
  | .rdw => 0x10#8 ++ 0#64
  | .rdstat => 0x11#8 ++ 0#64

/-- The instruction the decoder reads from a command whose low `nbits` bits are `w` and whose other bits
are 0. A command is one word delivered whole (R70), so the table's numbering is the word's own. -/
def decodeTableWord (nbits w : Nat) : Option Instr :=
  match decode (BitVec.ofNat 72 (w % 2 ^ nbits)) with
  | .ok i => some i
  | .error _ => none

end Sys2Proof
end

