-- ==== Sys2Proof/Config.lean ====
section
/-! DEFINITION. What an implementation fixes: the two parameters a model takes as arguments (R6, D12,
D19). They are fields of `State.cfg`, so that whatever is stated of a state holds for every value of
them (log entries 1 and 2). The spec leaves no result value open, so there is no free value here. -/

namespace Sys2Proof

/-- The parameters of an engine instance. No command and no host action writes them (R20, R22). -/
structure Config where
  /-- `POLY`, the polynomial constant: bit `b` is the coefficient of `x^b`, the coefficient of `x^64` is
  1 and not stored (R22, glossary). -/
  poly : Word
  /-- `SEQ_MAX`, the largest length of the attached sequence (R6, D12). -/
  seqMax : Nat
  deriving DecidableEq, Repr

/-- The documented polynomial constant, normative for bit-compatibility (R22). -/
def documentedPoly : Word := 0x0060034000F0D50A#64

/-- DESIGN CHOICE (log entry 2, safe): 2048, the default that the spec's list of open parameters names. -/
def defaultSeqMax : Nat := 2048

/-- The configuration of the documented engine. -/
def Config.documented : Config := { poly := documentedPoly, seqMax := defaultSeqMax }

/-- The constraint on the open parameter: `1 <= SEQ_MAX <= 2^31 - 1` (R6). -/
abbrev Config.Legal (c : Config) : Prop := 1 ≤ c.seqMax ∧ c.seqMax ≤ 2 ^ 31 - 1

end Sys2Proof
end

