-- ==== Sys2Proof/Machine/Construction.lean ====
section
/-! DEFINITION. Table construction (R100, R101): the pure functions `Mods` and `Tables` of the polynomial
constant. In the machine they run as part of the reset sequence only (R102, R231). -/

namespace Sys2Proof.Machine

/-- `XOR_{k = 0 .. n-1} f k`, 0 for the empty range (R8). -/
def xorBelow : Nat → (Nat → Word) → Word
  | 0, _ => 0#64
  | n + 1, f => xorBelow n f ^^^ f n

/-- One step of the mods recurrence: shift left by one in 64 bits and, if bit 63 was set before the
shift, XOR with the polynomial constant (R100). -/
def modsNext (poly m : Word) : Word :=
  if m.getLsbD 63 then (m <<< 1) ^^^ poly else m <<< 1

/-- `mods[i]` (R100). The sequence the spec names stops at `i = 63`. -/
def modsAt (poly : Word) : Nat → Word
  | 0 => poly
  | i + 1 => modsNext poly (modsAt poly i)

/-- The ModTable `mods[0..63]`, which lives only during construction (R23, R100, R105). -/
def mods (poly : Word) : List Word := (List.range 64).map (modsAt poly)

/-- The LookupTables `T[0..7]`, each of 256 entries of 64 bits (R24). -/
abbrev Tables := Vector (Vector Word 256) 8

/-- A vector listed from a function of the index. -/
def tabulate {α : Type} (n : Nat) (f : Nat → α) : Vector α n :=
  ⟨((List.range n).map f).toArray, by simp⟩

/-- `T[k][i] = XOR_{j = 0..7, i[j] = 1} mods[j + 8k]` (R101). -/
def tableEntry (poly : Word) (k i : Nat) : Word :=
  xorBelow 8 fun j => if i.testBit j then modsAt poly (j + 8 * k) else 0#64

/-- `Tables(POLY)` (R101). -/
def buildTables (poly : Word) : Tables :=
  tabulate 8 fun k => tabulate 256 fun i => tableEntry poly k i

/-! The source's own procedure (section 4.1 step 3, quoted in R101): every entry starts at 0 (D20), and for
each byte value and each bit position the mods entry is XORed into the tables of all eight lanes. -/

/-- The update of one entry `T[k][i]` for bit position `j`. -/
def accumulateBit (poly : Word) (k i j : Nat) (entry : Word) : Word :=
  if i.testBit j then entry ^^^ modsAt poly (j + 8 * k) else entry

/-- One pass over all entries for bit position `j`. -/
def accumulatePass (poly : Word) (t : Tables) (j : Nat) : Tables :=
  t.mapIdx fun k row => row.mapIdx fun i entry => accumulateBit poly k i j entry

/-- The procedure: from all-zero tables, the passes for `j = 0 .. 7`. -/
def accumulateTables (poly : Word) : Tables :=
  (List.range 8).foldl (accumulatePass poly) (tabulate 8 fun _ => tabulate 256 fun _ => 0#64)

end Sys2Proof.Machine
end

