-- ==== Sys2Proof/Machine/Operands.lean ====
section
/-! DEFINITION. Operand assembly: zero extension into the accumulator (R72) and the big-endian packing of a
stride (R52, R53, R73, R84). -/

namespace Sys2Proof.Machine

/-- `zext_64(b)`, a byte operand where it meets the accumulator (R72). -/
def zextByte (b : Byte) : Word := b.setWidth 64

/-- `zext_64(c)`, a char operand where it meets the accumulator (R72). -/
def zextHalf (c : Half) : Word := c.setWidth 64

/-- `zext_64(i)`, a 32-bit integer as the first element of an odd-length sequence (R74, R84 `LDZ32`). -/
def zextQuad (i : Quad) : Word := i.setWidth 64

/-- `{b0, b1, b2, b3, b4, b5, b6, b7}`: eight bytes, the first in bits 63:56 (R52, R73). -/
def packBytes (b0 b1 b2 b3 b4 b5 b6 b7 : Byte) : Word :=
  b0 ++ b1 ++ b2 ++ b3 ++ b4 ++ b5 ++ b6 ++ b7

/-- `{c0, c1, c2, c3}`: four chars, the first in bits 63:48 (R53, R73). -/
def packChars (c0 c1 c2 c3 : Half) : Word := c0 ++ c1 ++ c2 ++ c3

/-- `{i0, i1}`: two 32-bit integers, the first in bits 63:32 (R53, R73). -/
def packInts (i0 i1 : Quad) : Word := i0 ++ i1

/-- `MemRead(a, 8) = {A[a], A[a+1], ..., A[a+7]}`, eight single-byte reads packed (R9, R52, R54). -/
def memRead8 (A : Nat → Byte) (a : Nat) : Word :=
  packBytes (A a) (A (a + 1)) (A (a + 2)) (A (a + 3)) (A (a + 4)) (A (a + 5)) (A (a + 6)) (A (a + 7))

/-- Big-endian serialization of a char, most significant byte first (R167 `BE16`). -/
def be16 (c : Half) : List Byte := [c.extractLsb' 8 8, c.extractLsb' 0 8]

/-- Big-endian serialization of a 32-bit integer (R167 `BE32`). -/
def be32 (i : Quad) : List Byte :=
  [i.extractLsb' 24 8, i.extractLsb' 16 8, i.extractLsb' 8 8, i.extractLsb' 0 8]

/-- Big-endian serialization of a 64-bit integer (R167 `BE64`). -/
def be64 (l : Word) : List Byte :=
  [l.extractLsb' 56 8, l.extractLsb' 48 8, l.extractLsb' 40 8, l.extractLsb' 32 8,
   l.extractLsb' 24 8, l.extractLsb' 16 8, l.extractLsb' 8 8, l.extractLsb' 0 8]

end Sys2Proof.Machine
end

