-- ==== Sys2Proof/Machine/Fold.lean ====
section
/-! DEFINITION. The byte-lane selectors and the table fold (R120, R121). -/

namespace Sys2Proof.Machine

/-- `Lane(w, k) = w[8k+7 : 8k]` (R120). -/
def lane (w : Word) (k : Nat) : Byte := w.extractLsb' (8 * k) 8

/-- `T[k][i]`, one read of one bank (R9, R28, R50). -/
def tableRead (t : Tables) (k : Fin 8) (i : Byte) : Word := (t.get k).get i.toFin

/-- `Fold(w)`: eight reads, one per table, table `k` at index `Lane(w, k)`, joined by XOR (R121). -/
def fold (t : Tables) (w : Word) : Word :=
  tableRead t 0 (lane w 0) ^^^ tableRead t 1 (lane w 1) ^^^ tableRead t 2 (lane w 2) ^^^
  tableRead t 3 (lane w 3) ^^^ tableRead t 4 (lane w 4) ^^^ tableRead t 5 (lane w 5) ^^^
  tableRead t 6 (lane w 6) ^^^ tableRead t 7 (lane w 7)

/-- The head-byte step `(w << 8) ^ zext_64(b)`, without a table (R123, R146). -/
def headByte (w : Word) (b : Byte) : Word := (w <<< 8) ^^^ zextByte b

/-- The head-char step `(w << 16) ^ zext_64(c)`, without a table (R124, R162). -/
def headHalf (w : Word) (c : Half) : Word := (w <<< 16) ^^^ zextHalf c

/-- The word step `Fold(w) ^ v`, a nine-input XOR (R121, R125). -/
def wordStep (t : Tables) (w v : Word) : Word := fold t w ^^^ v

end Sys2Proof.Machine
end

