-- ==== Sys2Proof/Machine/State.lean ====
section
/-! DEFINITION. The state of the engine and of the environment it reads (R20), as plain data, and the
state after reset (R30, R231). -/

namespace Sys2Proof.Machine

/-- The cause codes `STATUS.CAUSE` can hold (R200); codes 3 to 255 are never held (R200, U11), so they
have no constructor. -/
inductive Cause where
  /-- Code 0, no fault since reset. -/
  | noCause
  /-- Code 1, IllegalCommand (R201). -/
  | illegalCommand
  /-- Code 2, InvalidArgument (R202). -/
  | invalidArgument
  deriving DecidableEq, Repr

/-- The live fields of `STATUS` (R25). Bits 7:1 and 63:24 are hard-wired 0 and held nowhere;
`statusWord` is the 64-bit register software reads (log entry 8). -/
structure Status where
  /-- `STATUS[0]`, the sticky fault flag (R26). -/
  err : Bool
  /-- `STATUS[15:8]`, the cause of the first fault since reset. -/
  cause : Cause
  /-- `STATUS[23:16]`, the opcode byte of the command that faulted. -/
  fop : Byte
  deriving DecidableEq, Repr

/-- A response of the engine (R78). Kind `0b11` is never produced (R78, U11), so it has no constructor. -/
inductive Resp where
  /-- A successful LDW, SHB, SHH, FOLDW or HASHB. -/
  | ack
  /-- `DATA(v)`: a successful RDW, any RDSTAT. -/
  | data (v : Word)
  /-- `NAK(c)`: a command that faults, and every command but RDSTAT in the fault state. -/
  | nak (c : Cause)
  deriving DecidableEq, Repr

/-- The three things the host can do to the engine (R215). -/
inductive HostAction where
  /-- `Cmd(c)`: send a 72-bit command word. -/
  | cmd (c : Cmd)
  /-- `Attach(A)`: replace the byte sequence as a whole. -/
  | attach (bytes : List Byte)
  /-- `Reset`: with `some c` it arrives while command `c` is in progress, which is abandoned (R230, D25). -/
  | reset (inProgress : Option Cmd)
  deriving DecidableEq, Repr

/-- The bytes of `SEQ`: strictly rising addresses, no entry that holds what an unlisted address reads as
(log entry 7). -/
abbrev Memory := List Host.Cell

/-- Everything R20 lists, and the two ends of the command and response ports. -/
structure State where
  /-- The parameters `POLY` and `SEQ_MAX` (R6; log entry 1). -/
  cfg : Config
  /-- `W`, the accumulator (R21). -/
  w : Word
  /-- `STATUS` (R25). -/
  status : Status
  /-- `T`, the table memory (R24, R50; log entry 9). -/
  tables : Tables
  /-- `SEQ`, the attached byte sequence (R20, R57). -/
  seq : Memory
  /-- `SEQLEN` (R20). -/
  seqLen : Nat
  /-- The host's actions not yet taken, first to be taken first (R215; log entry 3). -/
  host : List HostAction
  /-- The responses issued so far, oldest first (R78, R182; log entry 4). -/
  resps : List Resp
  deriving DecidableEq, Repr

/-- Reasons the machine stops with a fault: none. The two exceptions of R200 are next states of the
machine (fault entry, R204), and `step` is total (R10), so the spec names no condition that stops it
(log entry 18). -/
inductive Fault where
  deriving DecidableEq, Repr

/-- Reasons a step gives no meaning. -/
inductive Refusal where
  /-- Raised by an arm of `exec` for an instruction without a meaning; no arm does. Safe. -/
  | notModelled (mnemonic : String)
  /-- Raised by an attach of more than `SEQ_MAX` bytes, a move the host has not (R215 host duties; log
  entry 6). Safe: the model says nothing of such a run. -/
  | attachOverSeqMax
  deriving DecidableEq, Repr

/-- `STATUS` after reset: ERR = 0, CAUSE = 0, FOP = 0 (R30, R231). -/
def Status.reset : Status := { err := false, cause := .noCause, fop := 0#8 }

/-- The state at the start of a run: the reset sequence of R231 has completed (R30), the host has
attached nothing (`SEQLEN = 0`, R30), no action is pending and no response has been issued (log entries 3, 4). -/
def State.reset : State :=
  { cfg := Config.documented
    w := 0#64
    status := Status.reset
    tables := buildTables Config.documented.poly
    seq := []
    seqLen := 0
    host := []
    resps := [] }

end Sys2Proof.Machine
end

