-- ==== Sys2Proof/Machine/Ops.lean ====
section
/-! DEFINITION. The shared operations over the state: the named updates, the byte sequence, the responses,
taking an exception (R204), the fault state's refusal (R205), and the host's attach and reset (R215, R231). -/

namespace Sys2Proof.Machine

/-! ### Named updates, one field each -/

/-- `W <- v` (R9). -/
def setW (s : State) (v : Word) : State := { s with w := v }

/-- `STATUS <- st` (R9). -/
def setStatus (s : State) (st : Status) : State := { s with status := st }

/-- `T <- t`, by the reset sequence only (R24, R231). -/
def setTables (s : State) (t : Tables) : State := { s with tables := t }

/-- `SEQ` and `SEQLEN` replaced as a whole, by the host only (R51, R215). -/
def setSeq (s : State) (m : Memory) (n : Nat) : State := { s with seq := m, seqLen := n }

/-- The host's pending actions. -/
def setHost (s : State) (acts : List HostAction) : State := { s with host := acts }

/-- `resp <- r`: the one response of a command, issued in order (R9, R78, R79). -/
def respond (s : State) (r : Resp) : State := { s with resps := s.resps ++ [r] }

/-! ### The byte sequence (R50 to R57) -/

/-- What an address of `SEQ` that no cell lists reads as. Below `SEQLEN` every address holds a byte the
host attached, and the canonical form leaves out those that hold this one (log entry 7). -/
def unlistedByte : Byte := 0#8

/-- `MemRead(a, 1) = SEQ[a]` (R9), for `a < SEQLEN`; the bounds check of HASHB keeps every read there. -/
def memByte : Memory → Nat → Byte
  | [], _ => unlistedByte
  | (a, b) :: rest, n => if a = n then b else memByte rest n

/-- The cells of a byte list placed from address `base` up, first byte lowest (R57). -/
def memOfBytes (base : Nat) : List Byte → Memory
  | [] => []
  | b :: rest =>
    if b = unlistedByte then memOfBytes (base + 1) rest else (base, b) :: memOfBytes (base + 1) rest

/-- The canonical form: addresses strictly rising, no cell equal to what an unlisted address reads as. -/
abbrev Memory.wf (m : Memory) : Prop :=
  m.Pairwise (fun x y => x.1 < y.1) ∧ ∀ c ∈ m, c.2 ≠ unlistedByte

/-- No cell stands at an address that does not exist, that is at or above `SEQLEN` (R57). -/
abbrev Memory.below (n : Nat) (m : Memory) : Prop := ∀ c ∈ m, c.1 < n

/-! ### Exceptions and the fault state (R200 to R209) -/

/-- Fault entry, `raise E(op)`: STATUS records the cause and the opcode byte, `W` and everything else are
unchanged, the response is `NAK(c)` (R204). The one operation by which an exception is taken. -/
def raise (c : Cause) (op : Byte) (s : State) : State :=
  respond (setStatus s { err := true, cause := c, fop := op }) (.nak c)

/-- The `ERR` test of R76 step 2: in the fault state the command is answered `NAK(STATUS.CAUSE)` and
changes nothing (R205); otherwise it runs. -/
def unlessFaulted (s : State) (run : State → Host.Outcome State Fault Refusal) :
    Host.Outcome State Fault Refusal :=
  if s.status.err then .next (respond s (.nak s.status.cause)) else run s

/-- The end of a datapath command: the new accumulator and `ACK` (R122 to R125, R141). -/
def ackW (s : State) (v : Word) : Host.Outcome State Fault Refusal :=
  .next (respond (setW s v) .ack)

/-- A word that matches no row: IllegalCommand outside the fault state (R82, R201), `NAK` inside (R205). -/
def illegalWord (op : Byte) (s : State) : Host.Outcome State Fault Refusal :=
  unlessFaulted s fun s => .next (raise .illegalCommand op s)

/-- The reset sequence: `STATUS <- 0`, `W <- 0`, `T <- Tables(POLY)`; `SEQ` and `SEQLEN` are the host's and
are not touched (R231). There is no return from the fault state but this (R209). -/
def resetEngine (s : State) : State :=
  setTables (setW (setStatus s Status.reset) 0#64) (buildTables s.cfg.poly)

/-! ### The host's actions that are not commands (R215) -/

/-- `Attach(A)`: `SEQ <- A`, `SEQLEN <- length(A)`, no response (R215). More than `SEQ_MAX` bytes is a move
the host has not (log entry 6). -/
def attachSeq (bytes : List Byte) (s : State) : Host.Outcome State Fault Refusal :=
  if bytes.length ≤ s.cfg.seqMax then .next (setSeq s (memOfBytes 0 bytes) bytes.length)
  else .refused .attachOverSeqMax

/-- `Reset`: the reset sequence. A command in progress is abandoned without a response and its effects are
discarded (R215, R230). -/
def resetAction (_inProgress : Option Cmd) (s : State) : Host.Outcome State Fault Refusal :=
  .next (resetEngine s)

/-- The engine with no action pending keeps everything (R210, R213; log entry 5). -/
def idle (s : State) : Host.Outcome State Fault Refusal := .next s

end Sys2Proof.Machine
end

