-- ==== Sys2Proof/Machine/Datapath.lean ====
section
/-! DEFINITION. The four datapath commands LDW, SHB, SHH and FOLDW (R122 to R125). -/

namespace Sys2Proof.Machine

/-- LDW: `W <- v`, ACK (R122). -/
def execLdw (v : Word) (s : State) : Host.Outcome State Fault Refusal :=
  unlessFaulted s fun s => ackW s v

/-- SHB: `W <- (W << 8) ^ zext_64(b)`, ACK (R123). -/
def execShb (b : Byte) (s : State) : Host.Outcome State Fault Refusal :=
  unlessFaulted s fun s => ackW s (headByte s.w b)

/-- SHH: `W <- (W << 16) ^ zext_64(c)`, ACK (R124). -/
def execShh (c : Half) (s : State) : Host.Outcome State Fault Refusal :=
  unlessFaulted s fun s => ackW s (headHalf s.w c)

/-- FOLDW: `W <- Fold(W) ^ v`, all eight indices from the old `W`, ACK (R125). -/
def execFoldw (v : Word) (s : State) : Host.Outcome State Fault Refusal :=
  unlessFaulted s fun s => ackW s (wordStep s.tables s.w v)

end Sys2Proof.Machine
end

