-- ==== Sys2Proof/Machine/Flags.lean ====
section
/-! DEFINITION. The words software sees of the status register (R25, R200) and of a response (R78). There
are no condition codes (R26): the one flag is `STATUS.ERR`. -/

namespace Sys2Proof.Machine

/-- The 8-bit cause code (R200). -/
def causeCode : Cause → Byte
  | .noCause => 0#8
  | .illegalCommand => 1#8
  | .invalidArgument => 2#8

/-- `STATUS` as 64 bits: `ERR` in bit 0, `CAUSE` in 15:8, `FOP` in 23:16, bits 7:1 and 63:24 hard-wired
0 (R25). -/
def statusWord (st : Status) : Word :=
  0#40 ++ st.fop ++ causeCode st.cause ++ 0#7 ++ BitVec.ofBool st.err

/-- `resp[65:64]`, the kind of a response (R78). -/
def respKind : Resp → BitVec 2
  | .ack => 0b00#2
  | .data _ => 0b01#2
  | .nak _ => 0b10#2

/-- `resp[63:0]`, the payload of a response (R78). -/
def respPayload : Resp → Word
  | .ack => 0#64
  | .data v => v
  | .nak c => (causeCode c).setWidth 64

/-- The 66-bit response word (R78). -/
def respWord (r : Resp) : BitVec 66 := respKind r ++ respPayload r

end Sys2Proof.Machine
end

