-- ==== Sys2Proof/Machine/Readout.lean ====
section
/-! DEFINITION. The read-out commands RDW and RDSTAT (R180, R181). -/

namespace Sys2Proof.Machine

/-- RDW: `DATA(W)`, nothing changes; refused in the fault state (R180). -/
def execRdw (s : State) : Host.Outcome State Fault Refusal :=
  unlessFaulted s fun s => .next (respond s (.data s.w))

/-- RDSTAT: `DATA(STATUS)`, nothing changes; honoured in every state (R181, R76 step 1). -/
def execRdstat (s : State) : Host.Outcome State Fault Refusal :=
  .next (respond s (.data (statusWord s.status)))

end Sys2Proof.Machine
end

