-- ==== Sys2Proof/Machine/Sequence.lean ====
section
/-! DEFINITION. The byte-sequence hash: the function `HashBytes` (R146) and the command HASHB (R140 to
R142). -/

namespace Sys2Proof.Machine

/-- The head loop of R146: `n` head bytes from cursor `s` up, no table. -/
def headLoop (A : Nat → Byte) : Nat → Nat → Word → Word
  | 0, _, w => w
  | n + 1, s, w => headLoop A n (s + 1) (headByte w (A s))

/-- The word loop of R146: `q` groups of eight bytes from cursor `s` up. -/
def wordLoop (t : Tables) (A : Nat → Byte) : Nat → Nat → Word → Word
  | 0, _, w => w
  | q + 1, s, w => wordLoop t A q (s + 8) (wordStep t w (memRead8 A s))

/-- `HashBytes(A, off, len, seed)`: the first `len mod 8` bytes by the head step, then `len div 8` word
steps (R146). -/
def hashBytes (t : Tables) (A : Nat → Byte) (off len : Nat) (seed : Word) : Word :=
  wordLoop t A (len / 8) (off + len % 8) (headLoop A (len % 8) off seed)

/-- The range `[off, off + len)` lies in `SEQ`; the sum is a natural number and never wraps (R142). -/
def inBounds (s : State) (off len : Nat) : Bool := decide (off + len ≤ s.seqLen)

/-- HASHB: InvalidArgument before any effect if the range is out of bounds, for every `len` (R142);
otherwise `W <- HashBytes(SEQ, off, len, W)`, ACK (R141). -/
def execHashb (off len : Quad) (s : State) : Host.Outcome State Fault Refusal :=
  unlessFaulted s fun s =>
    if inBounds s off.toNat len.toNat then
      ackW s (hashBytes s.tables (memByte s.seq) off.toNat len.toNat s.w)
    else .next (raise .invalidArgument 0x08#8 s)

end Sys2Proof.Machine
end

