-- ==== Sys2Proof/Machine/Dispatch.lean ====
section
/-! DEFINITION. The meaning of every command: one arm per constructor of `Instr`. -/

namespace Sys2Proof.Machine

def exec (i : Instr) (s : State) : Host.Outcome State Fault Refusal :=
  match i with
  | .ldw v => Sys2Proof.Machine.execLdw v s
  | .shb b => Sys2Proof.Machine.execShb b s
  | .shh c => Sys2Proof.Machine.execShh c s
  | .foldw v => Sys2Proof.Machine.execFoldw v s
  | .hashb off len => Sys2Proof.Machine.execHashb off len s
  | .rdw => Sys2Proof.Machine.execRdw s
  | .rdstat => Sys2Proof.Machine.execRdstat s

end Sys2Proof.Machine
end

