-- ==== Sys2Proof/Machine/Command.lean ====
section
/-! DEFINITION. What the engine does with one host action (R76, R215). -/

namespace Sys2Proof.Machine

/-- A command word: decoded, and run or rejected. The `ERR` test of R76 stands in each meaning and in
`illegalWord`, so that only a well-formed RDSTAT passes it. -/
def runCmd (c : Cmd) (s : State) : Host.Outcome State Fault Refusal :=
  match decode c with
  | .ok i => exec i s
  | .error _ => illegalWord (opOf c) s

/-- One host action (R215). -/
def applyAction (a : HostAction) (s : State) : Host.Outcome State Fault Refusal :=
  match a with
  | .cmd c => runCmd c s
  | .attach bytes => attachSeq bytes s
  | .reset inProgress => resetAction inProgress s

end Sys2Proof.Machine
end

