-- ==== Sys2Proof/Machine/Step.lean ====
section
/-! DEFINITION. One step: the next host action is taken and applied (R10, R215). -/

namespace Sys2Proof.Machine

/-- One step: the first pending host action is taken off the list and applied; with none the engine is
idle. -/
def step (s : State) : Host.Outcome State Fault Refusal :=
  match s.host with
  | [] => idle s
  | a :: rest => applyAction a (setHost s rest)

/-- `s` with the command whose low `nbits` bits are `w` and whose other bits are 0 as the host's next
action, so that the very next step runs it (log entry 13). -/
def State.withFetchWord (s : State) (nbits w : Nat) : State :=
  setHost s (.cmd (BitVec.ofNat 72 (w % 2 ^ nbits)) :: s.host)

end Sys2Proof.Machine
end

