-- ==== Sys2Proof/Machine/Macros.lean ====
section
/-! DEFINITION. Pseudo-instructions (R84) and the typed-sequence packing macros (R85, R160 to R166): each
macro as the command list it expands to, and as the pure function it computes. -/

namespace Sys2Proof.Machine

/-! ### Pseudo-instructions (R84) -/

/-- `CLRW` is `LDW 0`. -/
def clrw : Instr := .ldw 0#64

/-- `LDZ32 i` is `LDW zext_64(i)`. -/
def ldz32 (i : Quad) : Instr := .ldw (zextQuad i)

/-- `FOLDW.B`: eight bytes, the first highest. -/
def foldwB (b0 b1 b2 b3 b4 b5 b6 b7 : Byte) : Instr := .foldw (packBytes b0 b1 b2 b3 b4 b5 b6 b7)

/-- `FOLDW.C`: four chars, the first highest. -/
def foldwC (c0 c1 c2 c3 : Half) : Instr := .foldw (packChars c0 c1 c2 c3)

/-- `FOLDW.I`: two 32-bit integers, the first highest. -/
def foldwI (i0 i1 : Quad) : Instr := .foldw (packInts i0 i1)

/-- `FOLDW.L`: one 64-bit integer. -/
def foldwL (l : Word) : Instr := .foldw l

/-! ### Expansions (R161, R162, R164, R165) -/

/-- One `FOLDW.B` per full group of eight bytes. -/
def foldBytes : List Byte → List Instr
  | b0 :: b1 :: b2 :: b3 :: b4 :: b5 :: b6 :: b7 :: rest => foldwB b0 b1 b2 b3 b4 b5 b6 b7 :: foldBytes rest
  | _ => []

/-- One `FOLDW.C` per full group of four chars. -/
def foldChars : List Half → List Instr
  | c0 :: c1 :: c2 :: c3 :: rest => foldwC c0 c1 c2 c3 :: foldChars rest
  | _ => []

/-- One `FOLDW.I` per full pair of 32-bit integers. -/
def foldInts : List Quad → List Instr
  | i0 :: i1 :: rest => foldwI i0 i1 :: foldInts rest
  | _ => []

/-- `HASH.BYTES seed, [b0, ...]` (R161): the first `n mod 8` bytes by SHB, then one FOLDW.B per group. -/
def macroBytes (seed : Word) (bs : List Byte) : List Instr :=
  .ldw seed :: ((bs.take (bs.length % 8)).map .shb ++ foldBytes (bs.drop (bs.length % 8)))

/-- `HASH.CHARS [c0, ...]` (R162): the first `n mod 4` chars by SHH, then one FOLDW.C per group. -/
def macroChars (cs : List Half) : List Instr :=
  clrw :: ((cs.take (cs.length % 4)).map .shh ++ foldChars (cs.drop (cs.length % 4)))

/-- `HASH.INTS [i0, ...]` (R164): with an odd count the first element is loaded, not shifted in. -/
def macroInts (is : List Quad) : List Instr :=
  if is.length % 2 = 0 then clrw :: foldInts is
  else match is with
    | [] => [clrw]
    | i0 :: rest => ldz32 i0 :: foldInts rest

/-- `HASH.LONGS [l0, ...]` (R165): one FOLDW.L per element, no head. -/
def macroLongs (ls : List Word) : List Instr := clrw :: ls.map foldwL

/-- The 16-bit code of a character: its Unicode code point, none for a character whose code point does not fit
16 bits. R166 gives the code of ASCII text alone and N11, U8 leave the encoding of a string open: for the
characters from 0x80 up the code is the model's choice (DESIGN CHOICE, log entry 21). -/
def charCode (c : Char) : Option Half :=
  if c.toNat < 2 ^ 16 then some (BitVec.ofNat 16 c.toNat) else none

/-- The 16-bit codes of a string, in order. -/
def stringCodes : List Char → Option (List Half)
  | [] => some []
  | c :: rest =>
    match charCode c, stringCodes rest with
    | some h, some hs => some (h :: hs)
    | _, _ => none

/-- `HASH.STR "..."` (R166): `HASH.CHARS` of the 16-bit codes of the string. -/
def macroStr (s : List Char) : Option (List Instr) := (stringCodes s).map macroChars

/-- The SHB and FOLDW.B stream that a successful `HASHB off, len` over `A` stands for (R143). -/
def hashbStream (A : Nat → Byte) (off len : Nat) : List Instr :=
  (List.range (len % 8)).map (fun n => .shb (A (off + n))) ++
  (List.range (len / 8)).map (fun q => .foldw (memRead8 A (off + len % 8 + 8 * q)))

/-! ### The functions the macros compute -/

/-- `HashBytes` of a whole byte list (R161). -/
def hashByteList (t : Tables) (bs : List Byte) (seed : Word) : Word :=
  hashBytes t (fun a => bs.getD a 0#8) 0 bs.length seed

/-- The word steps over full groups of four chars. -/
def charSteps (t : Tables) : Word → List Half → Word
  | w, c0 :: c1 :: c2 :: c3 :: rest => charSteps t (wordStep t w (packChars c0 c1 c2 c3)) rest
  | w, _ => w

/-- `HashChars(C)` (R162). -/
def hashChars (t : Tables) (cs : List Half) : Word :=
  charSteps t ((cs.take (cs.length % 4)).foldl headHalf 0#64) (cs.drop (cs.length % 4))

/-- The word steps over full pairs of 32-bit integers. -/
def intSteps (t : Tables) : Word → List Quad → Word
  | w, i0 :: i1 :: rest => intSteps t (wordStep t w (packInts i0 i1)) rest
  | w, _ => w

/-- `HashInts(I)` (R164). -/
def hashInts (t : Tables) (is : List Quad) : Word :=
  if is.length % 2 = 0 then intSteps t 0#64 is
  else match is with
    | [] => 0#64
    | i0 :: rest => intSteps t (zextQuad i0) rest

/-- `HashLongs(L)` (R165). -/
def hashLongs (t : Tables) (ls : List Word) : Word := ls.foldl (wordStep t) 0#64

end Sys2Proof.Machine
end

