-- ==== Sys2Proof/Machine/Asm.lean ====
section
/-! DEFINITION. The assembler of R83 to R85: one line of text to the host actions it stands for. Spaces,
tabs and carriage returns around a mnemonic and an operand are skipped, an empty line stands for nothing,
a `;` inside double quotes is part of the string (DESIGN CHOICE, log entry 15); a string holds no double quote
and ends on its line (DESIGN CHOICE, log entry 20), and stands in place of a list, never inside one (DESIGN
CHOICE, log entry 22). -/

namespace Sys2Proof.Machine

/-- Why the assembler refuses a line. -/
inductive AsmError where
  /-- The first word of the line is no mnemonic, pseudo-instruction, macro or directive. -/
  | unknownMnemonic
  /-- The line does not have the operands its mnemonic takes. -/
  | operandCount
  /-- An operand is neither a decimal nor a `0x` hexadecimal number. -/
  | badNumber
  /-- An operand does not fit its field: refused, never truncated (R83). -/
  | operandTooWide
  /-- A character of a string has no code of the width asked for (R166, U8; R83 ASCII). -/
  | badCharacter
  deriving DecidableEq, Repr

/-! ### Characters and pieces of a line -/

/-- A space, a tab or a carriage return. -/
def isBlank (c : Char) : Bool := c = ' ' || c = '\t' || c = '\r'

/-- The text without blanks at either end. -/
def trim (cs : List Char) : List Char :=
  ((cs.dropWhile isBlank).reverse.dropWhile isBlank).reverse

/-- The text cut at every `sep`. -/
def cutAt (sep : Char) : List Char → List (List Char)
  | [] => [[]]
  | c :: cs =>
    if c = sep then [] :: cutAt sep cs
    else match cutAt sep cs with
      | [] => [[c]]
      | h :: t => (c :: h) :: t

/-- The text before the first `;` outside double quotes: "`;` starts a comment" (R83). -/
def stripComment : Bool → List Char → List Char
  | _, [] => []
  | quoted, c :: cs =>
    if c = '"' then c :: stripComment (!quoted) cs
    else if c = ';' && !quoted then []
    else c :: stripComment quoted cs

/-- Operands "separated by commas" (R83); blank text has none. -/
def operandsOf (cs : List Char) : List (List Char) :=
  if trim cs = [] then [] else (cutAt ',' cs).map trim

/-! ### Numbers (R83): decimal, or hexadecimal with `0x` -/

/-- The value of a digit in the given base. -/
def digitValue (base : Nat) (c : Char) : Option Nat :=
  let d :=
    if '0' ≤ c ∧ c ≤ '9' then c.toNat - '0'.toNat
    else if 'a' ≤ c ∧ c ≤ 'f' then c.toNat - 'a'.toNat + 10
    else if 'A' ≤ c ∧ c ≤ 'F' then c.toNat - 'A'.toNat + 10
    else base
  if d < base then some d else none

/-- The number the digits write after what `acc` already holds. -/
def digitsFrom (base : Nat) : Nat → List Char → Option Nat
  | acc, [] => some acc
  | acc, c :: cs =>
    match digitValue base c with
    | some d => digitsFrom base (base * acc + d) cs
    | none => none

/-- A non-empty run of digits. -/
def digits (base : Nat) : List Char → Option Nat
  | [] => none
  | c :: cs => digitsFrom base 0 (c :: cs)

/-- A decimal number, or a hexadecimal one with `0x`. -/
def numberOf : List Char → Option Nat
  | '0' :: 'x' :: cs => digits 16 cs
  | cs => digits 10 cs

/-- An unsigned operand of `width` bits: refused if it does not fit, never truncated (R83). -/
def operand (width : Nat) (cs : List Char) : Except AsmError (BitVec width) :=
  match numberOf cs with
  | none => .error .badNumber
  | some n => if fitsField width n then .ok (BitVec.ofNat width n) else .error .operandTooWide

/-- An operand of `LDZ32`, `FOLDW.I`, `FOLDW.L` or an element of an integer macro: an unsigned operand, or a
negative number, which stands for its two's-complement pattern (R84, R163; PRESUMED, log entry 16). -/
def signedOperand (width : Nat) : List Char → Except AsmError (BitVec width)
  | '-' :: cs =>
    match digits 10 cs with
    | none => .error .badNumber
    | some n => if n ≤ 2 ^ (width - 1) then .ok (-BitVec.ofNat width n) else .error .operandTooWide
  | cs => operand width cs

/-- Every element by `f`, or the first refusal. -/
def eachOf {α β : Type} (f : α → Except AsmError β) : List α → Except AsmError (List β)
  | [] => .ok []
  | x :: xs =>
    match f x with
    | .error e => .error e
    | .ok y =>
      match eachOf f xs with
      | .error e => .error e
      | .ok ys => .ok (y :: ys)

/-! ### Lists and strings -/

/-- The elements of `[e0, e1, ...]`. -/
def bracketed : List Char → Option (List (List Char))
  | '[' :: cs =>
    match cs.reverse with
    | ']' :: r => some (operandsOf r.reverse)
    | _ => none
  | _ => none

/-- The characters of `"..."`: those between the first double quote and the last. R83 gives no escape and does
not say whether a double quote may stand inside: one that does makes the text no string, and its line is
refused (DESIGN CHOICE, log entry 20). -/
def quoted : List Char → Option (List Char)
  | '"' :: cs =>
    match cs.reverse with
    | '"' :: r => if '"' ∈ r then none else some r.reverse
    | _ => none
  | _ => none

/-- The ASCII byte of a character (R83; PRESUMED codes, log entry 16). -/
def asciiByte (c : Char) : Except AsmError Byte :=
  if c.toNat < 128 then .ok (BitVec.ofNat 8 c.toNat) else .error .badCharacter

/-- A byte sequence: a bracketed list of numbers, or a string standing for its ASCII bytes (R83). R83 does not
say whether a string may be an element of a list: it stands here in place of the whole list only, and a line
with a string inside the brackets is refused (DESIGN CHOICE, log entry 22). -/
def byteSequence (cs : List Char) : Except AsmError (List Byte) :=
  match quoted cs, bracketed cs with
  | some str, _ => eachOf asciiByte str
  | none, some es => eachOf (operand 8) es
  | none, none => .error .operandCount

/-- A bracketed list of elements, each by `f`. -/
def elements {β : Type} (f : List Char → Except AsmError β) (cs : List Char) : Except AsmError (List β) :=
  match bracketed cs with
  | some es => eachOf f es
  | none => .error .operandCount

/-- The text before and after the first comma. -/
def firstOperand (cs : List Char) : List Char × List Char :=
  (trim (cs.takeWhile (· ≠ ',')), trim ((cs.dropWhile (· ≠ ',')).drop 1))

/-! ### One line (R83, R84, R85) -/

/-- Commands as host actions: each is sent as its 72-bit word. -/
def sendAll (is : List Instr) : List HostAction := is.map fun i => .cmd (encode i)

/-- A line that stands for one command made from exactly `n` operands of one width. -/
def oneCommand {width : Nat} (f : List Char → Except AsmError (BitVec width))
    (make : List (BitVec width) → Option Instr) (rest : List Char) : Except AsmError (List HostAction) :=
  match eachOf f (operandsOf rest) with
  | .error e => .error e
  | .ok vs =>
    match make vs with
    | some i => .ok (sendAll [i])
    | none => .error .operandCount

/-- A line that stands for the commands of a macro over a list. -/
def listMacro {β : Type} (elems : Except AsmError (List β)) (expand : List β → List Instr) :
    Except AsmError (List HostAction) :=
  match elems with
  | .error e => .error e
  | .ok vs => .ok (sendAll (expand vs))

/-- A command without operands. -/
def bareCommand (i : Instr) (rest : List Char) : Except AsmError (List HostAction) :=
  if rest = [] then .ok (sendAll [i]) else .error .operandCount

/-- `HASH.BYTES seed, [b0, ...]` (R161). -/
def asmHashBytes (rest : List Char) : Except AsmError (List HostAction) :=
  match operand 64 (firstOperand rest).1 with
  | .error e => .error e
  | .ok seed => listMacro (byteSequence (firstOperand rest).2) (macroBytes seed)

/-- `HASH.STR "..."` (R166; the code of each character: log entry 21). -/
def asmHashStr (rest : List Char) : Except AsmError (List HostAction) :=
  match quoted rest with
  | none => .error .operandCount
  | some str =>
    match macroStr str with
    | some is => .ok (sendAll is)
    | none => .error .badCharacter

/-- `.attach [b0, ...]` or `.attach "..."` (R83). -/
def asmAttach (rest : List Char) : Except AsmError (List HostAction) :=
  match byteSequence rest with
  | .error e => .error e
  | .ok bs => .ok [.attach bs]

/-- A mnemonic and the text after it. -/
def asmStatement (mnemonic rest : List Char) : Except AsmError (List HostAction) :=
  if mnemonic = "LDW".toList then
    oneCommand (operand 64) (fun | [v] => some (.ldw v) | _ => none) rest
  else if mnemonic = "SHB".toList then
    oneCommand (operand 8) (fun | [b] => some (.shb b) | _ => none) rest
  else if mnemonic = "SHH".toList then
    oneCommand (operand 16) (fun | [c] => some (.shh c) | _ => none) rest
  else if mnemonic = "FOLDW".toList then
    oneCommand (operand 64) (fun | [v] => some (.foldw v) | _ => none) rest
  else if mnemonic = "HASHB".toList then
    oneCommand (operand 32) (fun | [off, len] => some (.hashb off len) | _ => none) rest
  else if mnemonic = "RDW".toList then bareCommand .rdw rest
  else if mnemonic = "RDSTAT".toList then bareCommand .rdstat rest
  else if mnemonic = "CLRW".toList then bareCommand clrw rest
  else if mnemonic = "LDZ32".toList then
    oneCommand (signedOperand 32) (fun | [i] => some (ldz32 i) | _ => none) rest
  else if mnemonic = "FOLDW.B".toList then
    oneCommand (operand 8) (fun
      | [b0, b1, b2, b3, b4, b5, b6, b7] => some (foldwB b0 b1 b2 b3 b4 b5 b6 b7)
      | _ => none) rest
  else if mnemonic = "FOLDW.C".toList then
    oneCommand (operand 16) (fun | [c0, c1, c2, c3] => some (foldwC c0 c1 c2 c3) | _ => none) rest
  else if mnemonic = "FOLDW.I".toList then
    oneCommand (signedOperand 32) (fun | [i0, i1] => some (foldwI i0 i1) | _ => none) rest
  else if mnemonic = "FOLDW.L".toList then
    oneCommand (signedOperand 64) (fun | [l] => some (foldwL l) | _ => none) rest
  else if mnemonic = "HASH.BYTES".toList then asmHashBytes rest
  else if mnemonic = "HASH.CHARS".toList then listMacro (elements (operand 16) rest) macroChars
  else if mnemonic = "HASH.INTS".toList then listMacro (elements (signedOperand 32) rest) macroInts
  else if mnemonic = "HASH.LONGS".toList then listMacro (elements (signedOperand 64) rest) macroLongs
  else if mnemonic = "HASH.STR".toList then asmHashStr rest
  else if mnemonic = ".attach".toList then asmAttach rest
  else if mnemonic = ".reset".toList then (if rest = [] then .ok [.reset none] else .error .operandCount)
  else .error .unknownMnemonic

/-- One line of a program. -/
def asmLine (line : List Char) : Except AsmError (List HostAction) :=
  let text := trim (stripComment false line)
  if text = [] then .ok []
  else asmStatement (text.takeWhile (!isBlank ·)) (trim (text.dropWhile (!isBlank ·)))

/-- A program, one command per line (R83): the host's list of actions, or the first refusal. -/
def assemble (program : List Char) : Except AsmError (List HostAction) :=
  match eachOf asmLine (cutAt '\n' program) with
  | .error e => .error e
  | .ok as => .ok as.flatten

end Sys2Proof.Machine
end

