-- ==== Sys2Proof/Machine/Run.lean ====
section
/-! DEFINITION. Runs: a list of instructions executed in order, and a run as a list of host actions applied
in order (R10, R182, R215). -/

namespace Sys2Proof.Machine

/-- The instructions in order, each from the state the one before it left (R59 (b)). -/
def execAll : List Instr → State → Host.Outcome State Fault Refusal
  | [], s => .next s
  | i :: rest, s =>
    match exec i s with
    | .next t => execAll rest t
    | .fault r => .fault r
    | .refused r => .refused r

/-- The host actions in order: a run (R10, R215). -/
def applyAll : List HostAction → State → Host.Outcome State Fault Refusal
  | [], s => .next s
  | a :: rest, s =>
    match applyAction a s with
    | .next t => applyAll rest t
    | .fault r => .fault r
    | .refused r => .refused r

end Sys2Proof.Machine
end

