-- ==== Sys2Proof/Safety.lean ====
section
/-! DEFINITION. The terms in which claims about the machine are made: the invariant of R32, and the
polynomial reading of R106, R127 and R128. No step of the machine uses anything of this file. -/

namespace Sys2Proof.Machine

/-- "The only values `STATUS` ever holds are `0x0` and `0x1 | (c << 8) | (op << 16)` with `c` in 1, 2"
(R25). -/
abbrev Status.Legal (st : Status) : Prop :=
  st = Status.reset ∨ (st.err = true ∧ st.cause ≠ .noCause)

/-- What holds of every state a run reaches: the constraint on `SEQ_MAX` (R6), the legal values of STATUS
(R25, R32), `T = Tables(POLY)` (R32), and `SEQ` a sequence of `SEQLEN <= SEQ_MAX` bytes in the form the
model keeps it (R20, R57, log entry 7). -/
structure Inv (s : State) : Prop where
  cfgLegal : s.cfg.Legal
  statusLegal : s.status.Legal
  tablesBuilt : s.tables = buildTables s.cfg.poly
  seqWf : Memory.wf s.seq
  seqBelow : Memory.below s.seqLen s.seq
  seqFits : s.seqLen ≤ s.cfg.seqMax

/-! ### The polynomial reading (R106): bit `b` is the coefficient of `x^b`, addition is XOR -/

/-- `v(x)`, the sum of `v[b] * x^b` over GF(2) (R106). -/
noncomputable def polyOf {n : Nat} (v : BitVec n) : Polynomial (ZMod 2) :=
  ∑ b ∈ Finset.range n, if v.getLsbD b then Polynomial.X ^ b else 0

/-- `P(x) = x^64 + POLY(x)`, the generator polynomial whose `x^64` coefficient is not stored (R106). -/
noncomputable def generator (poly : Word) : Polynomial (ZMod 2) := Polynomial.X ^ 64 + polyOf poly

/-- `M(x)`: the bytes read as one big-endian number, first byte most significant, and then as a polynomial
(R128). -/
noncomputable def messagePoly (bs : List Byte) : Polynomial (ZMod 2) :=
  bs.foldl (fun p b => p * Polynomial.X ^ 8 + polyOf b) 0

end Sys2Proof.Machine
end

