-- ==== Sys2Proof/Certificates/Slice0/Obligations.lean ====
section
/-! DEFINITION. The statements put to the provers, from the numbered rules of the spec. Each docstring
names the rule it formalises. -/

open Sys2Proof Sys2Proof.Machine

/-! ### Encoding -/

/-- No bit of an encoding is dropped (R71, R75). -/
def Obligations.DecodeOfEncodeIsTheInstruction : Prop :=
  ∀ i : Instr, decode (encode i) = .ok i

/-- A word has one reading and a command one word: what the decoder accepts is the encoding of what it
answers (R71, R82). -/
def Obligations.AcceptedWordIsTheEncodingOfItsInstruction : Prop :=
  ∀ (c : Cmd) (i : Instr), decode c = .ok i → encode i = c

/-- R75: a word spells the command of a row exactly when `(cmd & mask) = match`, with the operand fields of
R71, and the rows are pairwise disjoint. -/
def Obligations.WordSpellsACommandExactlyWhenItsRowMatches : Prop :=
  (∀ (c : Cmd) (v : Word), decode c = .ok (.ldw v) ↔
    c &&& 0xFF0000000000000000#72 = 0x010000000000000000#72 ∧ v = c.extractLsb' 0 64) ∧
  (∀ (c : Cmd) (b : Byte), decode c = .ok (.shb b) ↔
    c &&& 0xFFFFFFFFFFFFFFFF00#72 = 0x020000000000000000#72 ∧ b = c.extractLsb' 0 8) ∧
  (∀ (c : Cmd) (h : Half), decode c = .ok (.shh h) ↔
    c &&& 0xFFFFFFFFFFFFFF0000#72 = 0x030000000000000000#72 ∧ h = c.extractLsb' 0 16) ∧
  (∀ (c : Cmd) (v : Word), decode c = .ok (.foldw v) ↔
    c &&& 0xFF0000000000000000#72 = 0x040000000000000000#72 ∧ v = c.extractLsb' 0 64) ∧
  (∀ (c : Cmd) (off len : Quad), decode c = .ok (.hashb off len) ↔
    c &&& 0xFF0000000000000000#72 = 0x080000000000000000#72 ∧
      off = c.extractLsb' 32 32 ∧ len = c.extractLsb' 0 32) ∧
  (∀ c : Cmd, decode c = .ok .rdw ↔
    c &&& 0xFFFFFFFFFFFFFFFFFF#72 = 0x100000000000000000#72) ∧
  (∀ c : Cmd, decode c = .ok .rdstat ↔
    c &&& 0xFFFFFFFFFFFFFFFFFF#72 = 0x110000000000000000#72) ∧
  opcodeRows.Pairwise (fun r r' => ∀ c : Cmd, ¬ (c &&& r.2 = r.1 ∧ c &&& r'.2 = r'.1))

/-- R82: exactly the words of its cases (a) to (d) spell no command, 249 of the 256 opcodes are
unassigned, and outside the fault state such a word raises IllegalCommand: the fault entry of R204 with
the word's opcode byte. Every word with opcode 0x01, 0x04 or 0x08 spells a command, and a HASHB word whose
range is bad faults with InvalidArgument when executed. -/
def Obligations.IllegalWordsRaiseIllegalCommand : Prop :=
  (∀ c : Cmd, (∀ i, decode c ≠ .ok i) ↔
    (opOf c ∉ [0x01#8, 0x02#8, 0x03#8, 0x04#8, 0x08#8, 0x10#8, 0x11#8] ∨
      (opOf c = 0x02#8 ∧ c.extractLsb' 8 56 ≠ 0#56) ∨
      (opOf c = 0x03#8 ∧ c.extractLsb' 16 48 ≠ 0#48) ∨
      ((opOf c = 0x10#8 ∨ opOf c = 0x11#8) ∧ c.extractLsb' 0 64 ≠ 0#64))) ∧
  (∀ (c : Cmd) (s : State), (∀ i, decode c ≠ .ok i) → s.status.err = false →
    applyAction (.cmd c) s = .next
      { s with
        status := { err := true, cause := .illegalCommand, fop := opOf c }
        resps := s.resps ++ [.nak .illegalCommand] }) ∧
  ((List.range 256).filter
    (fun n => decide (BitVec.ofNat 8 n ∉ [0x01#8, 0x02#8, 0x03#8, 0x04#8, 0x08#8, 0x10#8, 0x11#8]))).length = 249 ∧
  (∀ c : Cmd, (opOf c = 0x01#8 ∨ opOf c = 0x04#8 ∨ opOf c = 0x08#8) → ∃ i, decode c = .ok i) ∧
  (∀ (c : Cmd) (s : State), opOf c = 0x08#8 → s.status.err = false →
    s.seqLen < (c.extractLsb' 32 32).toNat + (c.extractLsb' 0 32).toNat →
    applyAction (.cmd c) s = .next
      { s with
        status := { err := true, cause := .invalidArgument, fop := 0x08#8 }
        resps := s.resps ++ [.nak .invalidArgument] })

/-- Words written out from the formats of R71 and the opcodes of R75 decode to what they stand for. -/
def Obligations.WordsWrittenFromTheFormatsDecode : Prop :=
  decode 0x011122334455667788#72 = .ok (.ldw 0x1122334455667788#64) ∧
  decode 0x0200000000000000FF#72 = .ok (.shb 0xFF#8) ∧
  decode 0x03000000000000BEEF#72 = .ok (.shh 0xBEEF#16) ∧
  decode 0x04FEDCBA9876543210#72 = .ok (.foldw 0xFEDCBA9876543210#64) ∧
  decode 0x080000000200000009#72 = .ok (.hashb 2#32 9#32) ∧
  decode 0x100000000000000000#72 = .ok .rdw ∧
  decode 0x110000000000000000#72 = .ok .rdstat ∧
  decode 0x020000000000000100#72 = .error (.mustBeZero 0x02#8) ∧
  decode 0x000000000000000000#72 = .error (.unassignedOpcode 0x00#8)

/-! ### The step -/

/-- A step whose next host action is a command that decodes to `i` is `exec i`, with the action taken off
the list and nothing else around it (R10). -/
def Obligations.StepRunsTheDecodedInstruction : Prop :=
  ∀ (s : State) (c : Cmd) (i : Instr) (rest : List HostAction),
    s.host = .cmd c :: rest → decode c = .ok i → step s = exec i { s with host := rest }

/-- R76, its four steps in their order: a well-formed RDSTAT first, then the `ERR` test, then the rows, then
IllegalCommand. -/
def Obligations.StepFollowsTheDecodeOrder : Prop :=
  ∀ (s : State) (c : Cmd) (rest : List HostAction), s.host = .cmd c :: rest →
    step s =
      if c &&& 0xFFFFFFFFFFFFFFFFFF#72 = 0x110000000000000000#72 then
        .next { s with host := rest, resps := s.resps ++ [.data (statusWord s.status)] }
      else if s.status.err = true then
        .next { s with host := rest, resps := s.resps ++ [.nak s.status.cause] }
      else
        match decode c with
        | .ok i => exec i { s with host := rest }
        | .error _ => .next
            { s with
              host := rest
              status := { err := true, cause := .illegalCommand, fop := c.extractLsb' 64 8 }
              resps := s.resps ++ [.nak .illegalCommand] }

/-- R78: every command produces exactly one response, which one, and its 66-bit word. -/
def Obligations.EveryCommandGetsItsOneResponse : Prop :=
  (∀ (s : State) (c : Cmd) (rest : List HostAction), s.host = .cmd c :: rest →
    ∃ t r, step s = .next t ∧ t.resps = s.resps ++ [r] ∧
      (decode c = .ok .rdstat → r = .data (statusWord s.status)) ∧
      (decode c ≠ .ok .rdstat → s.status.err = true → r = .nak s.status.cause) ∧
      (s.status.err = false →
        (decode c = .ok .rdw → r = .data s.w) ∧
        (∀ v, decode c = .ok (.ldw v) → r = .ack) ∧
        (∀ b, decode c = .ok (.shb b) → r = .ack) ∧
        (∀ h, decode c = .ok (.shh h) → r = .ack) ∧
        (∀ v, decode c = .ok (.foldw v) → r = .ack) ∧
        (∀ off len, decode c = .ok (.hashb off len) →
          r = if off.toNat + len.toNat ≤ s.seqLen then .ack else .nak .invalidArgument) ∧
        ((∀ i, decode c ≠ .ok i) → r = .nak .illegalCommand))) ∧
  respWord .ack = 0x00000000000000000#66 ∧
  (∀ v : Word, respWord (.data v) = 0b01#2 ++ v) ∧
  (∀ k : Cause, respWord (.nak k) = 0b10#2 ++ (causeCode k).setWidth 64) ∧
  (∀ r : Resp, (respWord r).extractLsb' 64 2 ≠ 0b11#2)

/-- An engine with no action pending keeps everything (60_exceptions.md sections 2 and 7; the model's idle step, log
entry 5). -/
def Obligations.IdleEngineKeepsEverything : Prop :=
  ∀ s : State, s.host = [] → step s = .next s

/-- R10: every step has a next state, but for the one move the host has not, an attach of more than
`SEQ_MAX` bytes (log entry 6). -/
def Obligations.EveryStepButAnOverlongAttachCompletes : Prop :=
  ∀ s : State, (∃ t, step s = .next t) ∨
    ∃ bytes rest, s.host = .attach bytes :: rest ∧ s.cfg.seqMax < bytes.length ∧
      step s = .refused .attachOverSeqMax

/-! ### The datapath commands -/

/-- R122: LDW. -/
def Obligations.LdwLoadsTheAccumulator : Prop :=
  (∀ (s : State) (v : Word), s.status.err = false →
    exec (.ldw v) s = .next { s with w := v, resps := s.resps ++ [.ack] }) ∧
  (∀ (s : State) (v : Word), s.status.err = true →
    exec (.ldw v) s = .next { s with resps := s.resps ++ [.nak s.status.cause] }) ∧
  (∀ c : Cmd, c.extractLsb' 64 8 = 0x01#8 → decode c = .ok (.ldw (c.extractLsb' 0 64)))

/-- R123: SHB. `W <- (W << 8) ^ zext_64(b)`, equally `W <- W[55:0], b`; eight of them replace `W` by the
eight bytes, first byte in lane 7; the word with a must-be-zero bit set is illegal. -/
def Obligations.ShbShiftsAByteInWithoutReduction : Prop :=
  (∀ (s : State) (b : Byte), s.status.err = false →
    exec (.shb b) s = .next
      { s with w := (s.w <<< 8) ^^^ b.setWidth 64, resps := s.resps ++ [.ack] }) ∧
  (∀ (w : Word) (b : Byte), (w <<< 8) ^^^ b.setWidth 64 = w.extractLsb' 0 56 ++ b) ∧
  (∀ (s : State) (b0 b1 b2 b3 b4 b5 b6 b7 : Byte), s.status.err = false →
    ∃ t, execAll [.shb b0, .shb b1, .shb b2, .shb b3, .shb b4, .shb b5, .shb b6, .shb b7] s = .next t ∧
      t.w = b0 ++ b1 ++ b2 ++ b3 ++ b4 ++ b5 ++ b6 ++ b7) ∧
  (∀ (s : State) (c : Cmd), s.status.err = false → opOf c = 0x02#8 → c.extractLsb' 8 56 ≠ 0#56 →
    applyAction (.cmd c) s = .next
      { s with
        status := { err := true, cause := .illegalCommand, fop := 0x02#8 }
        resps := s.resps ++ [.nak .illegalCommand] })

/-- R124: SHH. `W <- (W << 16) ^ zext_64(c)`, equally `W <- W[47:0], c`; it has the effect of two SHBs, high
byte first; the word with a must-be-zero bit set is illegal. -/
def Obligations.ShhShiftsACharInLikeTwoShb : Prop :=
  (∀ (s : State) (h : Half), s.status.err = false →
    exec (.shh h) s = .next
      { s with w := (s.w <<< 16) ^^^ h.setWidth 64, resps := s.resps ++ [.ack] }) ∧
  (∀ (w : Word) (h : Half), (w <<< 16) ^^^ h.setWidth 64 = w.extractLsb' 0 48 ++ h) ∧
  (∀ (s : State) (h : Half), s.status.err = false →
    ∃ t u, exec (.shh h) s = .next t ∧
      execAll [.shb (h.extractLsb' 8 8), .shb (h.extractLsb' 0 8)] s = .next u ∧ t.w = u.w) ∧
  (∀ (s : State) (c : Cmd), s.status.err = false → opOf c = 0x03#8 → c.extractLsb' 16 48 ≠ 0#48 →
    applyAction (.cmd c) s = .next
      { s with
        status := { err := true, cause := .illegalCommand, fop := 0x03#8 }
        resps := s.resps ++ [.nak .illegalCommand] })

/-- R125: FOLDW. All nine terms, the eight indices from the old `W`; from `W = 0` over built tables `W`
becomes `v`; every word with opcode 0x04 is legal. -/
def Obligations.FoldwIsTheNineTermXor : Prop :=
  (∀ (s : State) (v : Word), s.status.err = false →
    exec (.foldw v) s = .next
      { s with
        w := tableRead s.tables 0 (s.w.extractLsb' 0 8) ^^^ tableRead s.tables 1 (s.w.extractLsb' 8 8) ^^^
          tableRead s.tables 2 (s.w.extractLsb' 16 8) ^^^ tableRead s.tables 3 (s.w.extractLsb' 24 8) ^^^
          tableRead s.tables 4 (s.w.extractLsb' 32 8) ^^^ tableRead s.tables 5 (s.w.extractLsb' 40 8) ^^^
          tableRead s.tables 6 (s.w.extractLsb' 48 8) ^^^ tableRead s.tables 7 (s.w.extractLsb' 56 8) ^^^ v
        resps := s.resps ++ [.ack] }) ∧
  (∀ (s : State) (v : Word), s.status.err = false → s.tables = buildTables s.cfg.poly → s.w = 0#64 →
    exec (.foldw v) s = .next { s with w := v, resps := s.resps ++ [.ack] }) ∧
  (∀ c : Cmd, c.extractLsb' 64 8 = 0x04#8 → decode c = .ok (.foldw (c.extractLsb' 0 64)))

/-- R120, R121: `Lane(w, k) = (w >> 8k) & 0xFF`, and a lane whose byte is 0 contributes 0 to the fold over
built tables. -/
def Obligations.LanesSelectBytesAndZeroLanesContributeNothing : Prop :=
  (∀ (w : Word) (k : Nat), k < 8 → (lane w k).setWidth 64 = (w >>> (8 * k)) &&& 0xFF#64) ∧
  (∀ (poly : Word) (k : Fin 8), tableRead (buildTables poly) k 0#8 = 0#64) ∧
  (∀ (poly w : Word) (k : Fin 8), (∀ j : Nat, j < 8 → j ≠ k.val → lane w j = 0#8) →
    fold (buildTables poly) w = tableRead (buildTables poly) k (lane w k.val))

/-! ### HASHB -/

/-- R141: the bounds test first, then `W <- HashBytes(SEQ, off, len, W)`; every word with opcode 0x08 is a
legal HASHB (R140). -/
def Obligations.HashbHashesItsRangeOrRaisesInvalidArgument : Prop :=
  (∀ (s : State) (off len : Quad), s.status.err = false → off.toNat + len.toNat ≤ s.seqLen →
    exec (.hashb off len) s = .next
      { s with
        w := hashBytes s.tables (memByte s.seq) off.toNat len.toNat s.w
        resps := s.resps ++ [.ack] }) ∧
  (∀ (s : State) (off len : Quad), s.status.err = false → s.seqLen < off.toNat + len.toNat →
    exec (.hashb off len) s = .next
      { s with
        status := { err := true, cause := .invalidArgument, fop := 0x08#8 }
        resps := s.resps ++ [.nak .invalidArgument] }) ∧
  (∀ c : Cmd, c.extractLsb' 64 8 = 0x08#8 →
    decode c = .ok (.hashb (c.extractLsb' 32 32) (c.extractLsb' 0 32)))

/-- R142: the sum never wraps, the check is made for every `len` including 0, and in a state a run reaches
a "negative" `off` or `len` (bit 31 set) is out of bounds. -/
def Obligations.BoundsCheckNeverWrapsAndCoversEmptyRanges : Prop :=
  (∀ (s : State) (off len : Quad), s.status.err = false →
    (s.seqLen < off.toNat + len.toNat ↔
      exec (.hashb off len) s = .next (raise .invalidArgument 0x08#8 s))) ∧
  (∀ (s : State) (off : Quad), s.status.err = false → s.seqLen < off.toNat →
    exec (.hashb off 0#32) s = .next (raise .invalidArgument 0x08#8 s)) ∧
  (∀ (s : State) (off : Quad), s.status.err = false → off.toNat ≤ s.seqLen →
    exec (.hashb off 0#32) s = .next { s with resps := s.resps ++ [.ack] }) ∧
  (∀ (s : State) (off len : Quad), Inv s → s.status.err = false →
    (off.getLsbD 31 = true ∨ len.getLsbD 31 = true) →
    exec (.hashb off len) s = .next (raise .invalidArgument 0x08#8 s)) ∧
  (∀ off len : Quad, off.toNat + len.toNat ≤ 2 ^ 33 - 2)

/-- R144: empty input in bounds leaves `W` unchanged and is acknowledged, also with nothing attached. -/
def Obligations.EmptyInputReturnsTheSeed : Prop :=
  (∀ (t : Tables) (A : Nat → Byte) (off : Nat) (seed : Word), hashBytes t A off 0 seed = seed) ∧
  (∀ (s : State) (off : Quad), s.status.err = false → off.toNat ≤ s.seqLen →
    exec (.hashb off 0#32) s = .next { s with resps := s.resps ++ [.ack] }) ∧
  (∀ s : State, s.status.err = false → s.seqLen = 0 →
    exec (.hashb 0#32 0#32) s = .next { s with resps := s.resps ++ [.ack] })

/-- R146: first `len mod 8` head bytes without a table, then `len div 8` word steps over the big-endian
groups that follow without gaps. -/
def Obligations.HashBytesIsHeadStepsThenWordSteps : Prop :=
  ∀ (t : Tables) (A : Nat → Byte) (off len : Nat) (seed : Word),
    hashBytes t A off len seed =
      (List.range (len / 8)).foldl
        (fun w q =>
          let a := off + len % 8 + 8 * q
          fold t w ^^^
            (A a ++ A (a + 1) ++ A (a + 2) ++ A (a + 3) ++ A (a + 4) ++ A (a + 5) ++ A (a + 6) ++ A (a + 7)))
        ((List.range (len % 8)).foldl (fun w n => (w <<< 8) ^^^ (A (off + n)).setWidth 64) seed)

/-- R55: the hash reads no byte outside `[off, off + len)`. -/
def Obligations.HashDependsOnNoByteOutsideTheRange : Prop :=
  ∀ (t : Tables) (A B : Nat → Byte) (off len : Nat) (seed : Word),
    (∀ a, off ≤ a → a < off + len → A a = B a) →
    hashBytes t A off len seed = hashBytes t B off len seed

/-- R143: a successful HASHB changes `W` exactly as its SHB and FOLDW.B stream does; the two differ in
responses only, one ACK against `r + q` of them. The stream is what `HASH.BYTES` expands to after its load,
and outside the fault state it runs through without a fault whatever the range. -/
def Obligations.HashbIsItsCommandStream : Prop :=
  (∀ (s : State) (off len : Quad), s.status.err = false → off.toNat + len.toNat ≤ s.seqLen →
    ∃ t, exec (.hashb off len) s = .next t ∧ t.resps = s.resps ++ [.ack] ∧
      execAll (hashbStream (memByte s.seq) off.toNat len.toNat) s = .next
        { t with resps := s.resps ++ List.replicate (len.toNat % 8 + len.toNat / 8) .ack }) ∧
  (∀ (A : Nat → Byte) (off len : Nat) (seed : Word),
    macroBytes seed ((List.range len).map fun n => A (off + n)) = .ldw seed :: hashbStream A off len) ∧
  (∀ (s : State) (A : Nat → Byte) (off len : Nat), s.status.err = false →
    ∃ t, execAll (hashbStream A off len) s = .next t ∧ t.status = s.status)

/-- R148: chaining equals one call when the second piece is a multiple of 8 bytes long, for every length of
the first and every seed; a chain over any list of chunks equals one call over the whole when every chunk
after the first is. Otherwise the two differ in general: the rule's numbers for the 19 bytes 0x00 to 0x12,
in one call, in chunks of 11 and 8, and in chunks of 8 and 11. -/
def Obligations.ChainingEqualsOneCallForWholeWordTails : Prop :=
  (∀ (t : Tables) (xs ys : List Byte) (seed : Word), ys.length % 8 = 0 →
    hashByteList t (xs ++ ys) seed = hashByteList t ys (hashByteList t xs seed)) ∧
  (∀ (t : Tables) (first : List Byte) (later : List (List Byte)) (seed : Word),
    (∀ chunk ∈ later, chunk.length % 8 = 0) →
    later.foldl (fun w chunk => hashByteList t chunk w) (hashByteList t first seed) =
      hashByteList t (first ++ later.flatten) seed) ∧
  (let t := buildTables documentedPoly
   let bytes (n m : Nat) : List Byte := (List.range m).map fun a => BitVec.ofNat 8 (n + a)
   hashByteList t (bytes 0 19) 0#64 = 0x50E5AA9411C2D878#64 ∧
   hashByteList t (bytes 11 8) (hashByteList t (bytes 0 11) 0#64) = 0x50E5AA9411C2D878#64 ∧
   hashByteList t (bytes 8 11) (hashByteList t (bytes 0 8) 0#64) = 0x3EFE8C9EB68E20B4#64)

/-- R148, R243, conflict C1: without the side condition the law is false, already of the documented
engine. -/
def Obligations.ChunkBoundaryIndependenceIsFalse : Prop :=
  ¬ ∀ (xs ys : List Byte) (seed : Word),
    hashByteList (buildTables documentedPoly) (xs ++ ys) seed =
      hashByteList (buildTables documentedPoly) ys (hashByteList (buildTables documentedPoly) xs seed)

/-- R244: with `len mod 8 = r` the top `8r` bits of the seed have no influence; SHB reads no table, so a
range of fewer than 8 bytes gives the same value over any tables. -/
def Obligations.HeadDiscardsTheTopSeedBits : Prop :=
  (∀ (t : Tables) (A : Nat → Byte) (off len : Nat) (seed seed' : Word),
    (∀ b, b < 64 - 8 * (len % 8) → seed.getLsbD b = seed'.getLsbD b) →
    hashBytes t A off len seed = hashBytes t A off len seed') ∧
  (∀ (t t' : Tables) (A : Nat → Byte) (off len : Nat) (seed : Word), len < 8 →
    hashBytes t A off len seed = hashBytes t' A off len seed)

/-! ### Read-out and STATUS -/

/-- R180: RDW. -/
def Obligations.RdwAnswersTheAccumulator : Prop :=
  (∀ s : State, s.status.err = false →
    exec .rdw s = .next { s with resps := s.resps ++ [.data s.w] }) ∧
  (∀ s : State, s.status.err = true →
    exec .rdw s = .next { s with resps := s.resps ++ [.nak s.status.cause] }) ∧
  (∀ (s : State) (c : Cmd), s.status.err = false → opOf c = 0x10#8 → c.extractLsb' 0 64 ≠ 0#64 →
    applyAction (.cmd c) s = .next (raise .illegalCommand 0x10#8 s))

/-- R181: RDSTAT is honoured in every state and changes nothing; a word with opcode 0x11 and a non-zero
operand is illegal outside the fault state and gets NAK inside it. Before any fault it answers 0, after one
`0x1 | (CAUSE << 8) | (FOP << 16)`. -/
def Obligations.RdstatAnswersStatusInEveryState : Prop :=
  (∀ s : State, exec .rdstat s = .next { s with resps := s.resps ++ [.data (statusWord s.status)] }) ∧
  (∀ (s : State) (c : Cmd), s.status.err = false → opOf c = 0x11#8 → c.extractLsb' 0 64 ≠ 0#64 →
    applyAction (.cmd c) s = .next (raise .illegalCommand 0x11#8 s)) ∧
  (∀ (s : State) (c : Cmd), s.status.err = true → opOf c = 0x11#8 → c.extractLsb' 0 64 ≠ 0#64 →
    applyAction (.cmd c) s = .next { s with resps := s.resps ++ [.nak s.status.cause] }) ∧
  (∀ s : State, Inv s → s.status.err = false →
    exec .rdstat s = .next { s with resps := s.resps ++ [.data 0#64] }) ∧
  (∀ s : State, s.status.err = true →
    exec .rdstat s = .next
      { s with resps := s.resps ++
          [.data (1#64 ||| ((causeCode s.status.cause).setWidth 64 <<< 8) ||| (s.status.fop.setWidth 64 <<< 16))] })

/-- R25: the fields of STATUS, its hard-wired zeros, its reset value, and the only values it holds in a
state a run reaches. -/
def Obligations.StatusWordHasTheFieldsOfTheRegister : Prop :=
  (∀ st : Status, (statusWord st).getLsbD 0 = st.err ∧
    (statusWord st).extractLsb' 1 7 = 0#7 ∧
    (statusWord st).extractLsb' 8 8 = causeCode st.cause ∧
    (statusWord st).extractLsb' 16 8 = st.fop ∧
    (statusWord st).extractLsb' 24 40 = 0#40) ∧
  (∀ k : Cause, causeCode k = 0#8 ∨ causeCode k = 1#8 ∨ causeCode k = 2#8) ∧
  statusWord State.reset.status = 0#64 ∧
  (∀ s : State, Inv s → statusWord s.status = 0#64 ∨
    ∃ (k : Byte) (op : Byte), (k = 1#8 ∨ k = 2#8) ∧
      statusWord s.status = 1#64 ||| (k.setWidth 64 <<< 8) ||| (op.setWidth 64 <<< 16))

/-! ### Frames -/

/-- LDW, SHB, SHH and FOLDW write `W` and issue a response, and change nothing else: no other register, no
flag, no table entry, no byte of memory (R21, R26, R51). -/
def Obligations.DatapathCommandsChangeOnlyTheAccumulator : Prop :=
  ∀ (i : Instr) (s t : State),
    ((∃ v, i = .ldw v) ∨ (∃ b, i = .shb b) ∨ (∃ h, i = .shh h) ∨ (∃ v, i = .foldw v)) →
    exec i s = .next t →
    t.cfg = s.cfg ∧ t.status = s.status ∧ t.tables = s.tables ∧ t.seqLen = s.seqLen ∧ t.host = s.host ∧
      (∀ a, memByte t.seq a = memByte s.seq a) ∧ (∃ r, t.resps = s.resps ++ [r]) ∧
      (s.status.err = true → t.w = s.w)

/-- HASHB writes `W` or takes InvalidArgument, never both, and changes no table entry and no byte of memory
(R51, R141, R208). -/
def Obligations.HashbChangesTheAccumulatorOrStatusNeverBoth : Prop :=
  ∀ (off len : Quad) (s t : State), exec (.hashb off len) s = .next t →
    t.cfg = s.cfg ∧ t.tables = s.tables ∧ t.seqLen = s.seqLen ∧ t.host = s.host ∧
      (∀ a, memByte t.seq a = memByte s.seq a) ∧ (∃ r, t.resps = s.resps ++ [r]) ∧
      (t.status = s.status ∨ t.w = s.w) ∧
      (t.status = s.status ∨ t.status = { err := true, cause := .invalidArgument, fop := 0x08#8 })

/-- RDW and RDSTAT issue a response and change nothing else (R180, R181). -/
def Obligations.ReadoutCommandsChangeNothing : Prop :=
  ∀ (i : Instr) (s t : State), (i = .rdw ∨ i = .rdstat) → exec i s = .next t →
    t.cfg = s.cfg ∧ t.w = s.w ∧ t.status = s.status ∧ t.tables = s.tables ∧ t.seqLen = s.seqLen ∧
      t.host = s.host ∧ (∀ a, memByte t.seq a = memByte s.seq a) ∧ (∃ r, t.resps = s.resps ++ [r])

/-- R51: no command writes memory: whatever word is sent, in whatever state, the tables, the byte sequence
and its length stay as they are; the sequence changes by an attach alone, the tables by a reset alone
(R24). -/
def Obligations.NoCommandWritesMemory : Prop :=
  (∀ (c : Cmd) (s t : State), applyAction (.cmd c) s = .next t →
    t.tables = s.tables ∧ t.seq = s.seq ∧ t.seqLen = s.seqLen ∧
      (∀ (k : Fin 8) (n : Byte), tableRead t.tables k n = tableRead s.tables k n) ∧
      (∀ a, memByte t.seq a = memByte s.seq a)) ∧
  (∀ s t : State, step s = .next t →
    ((t.seq ≠ s.seq ∨ t.seqLen ≠ s.seqLen) → ∃ bytes rest, s.host = .attach bytes :: rest) ∧
    (t.tables ≠ s.tables → ∃ p rest, s.host = .reset p :: rest))

/-- R20, R22: the configuration is fixed for the life of an engine instance: no step of any kind changes
`POLY` or `SEQ_MAX`. -/
def Obligations.NoStepChangesTheConfiguration : Prop :=
  ∀ s t : State, step s = .next t → t.cfg = s.cfg

/-! ### Faults and the fault state -/

/-- R204, R208: a command that faults changes STATUS alone, records its cause and its opcode byte, and is
answered NAK of that cause; a command that does not fault leaves STATUS alone. -/
def Obligations.FaultEntryRecordsTheCauseAndChangesNothingElse : Prop :=
  (∀ (c : Cause) (op : Byte) (s : State), raise c op s =
    { s with status := { err := true, cause := c, fop := op }, resps := s.resps ++ [.nak c] }) ∧
  (∀ (c : Cmd) (s t : State), s.status.err = false → applyAction (.cmd c) s = .next t →
    (t.status = s.status ∧ ∃ r, (r = .ack ∨ r = .data s.w ∨ r = .data (statusWord s.status)) ∧
        t.resps = s.resps ++ [r]) ∨
      t = raise .illegalCommand (opOf c) s ∨
      (opOf c = 0x08#8 ∧ t = raise .invalidArgument (opOf c) s))

/-- R205: in the fault state every word but a well-formed RDSTAT is answered NAK of the recorded cause and
changes no state; a well-formed RDSTAT is answered STATUS. -/
def Obligations.FaultStateRefusesEveryCommandButRdstat : Prop :=
  ∀ (s : State) (c : Cmd), s.status.err = true →
    (c ≠ 0x110000000000000000#72 →
      applyAction (.cmd c) s = .next { s with resps := s.resps ++ [.nak s.status.cause] }) ∧
    (c = 0x110000000000000000#72 →
      applyAction (.cmd c) s = .next { s with resps := s.resps ++ [.data (statusWord s.status)] })

/-- R207: the first fault wins: after it no run of commands and attaches changes STATUS, or `W`. -/
def Obligations.FirstFaultIsKeptUntilReset : Prop :=
  ∀ (acts : List HostAction) (s t : State), s.status.err = true →
    (∀ p, HostAction.reset p ∉ acts) → applyAll acts s = .next t →
    t.status = s.status ∧ t.w = s.w

/-- R209: only a reset leaves the fault state, and every reset does, with `W` 0 and the tables rebuilt; no
command sent in the fault state faults or clears `ERR`. -/
def Obligations.OnlyResetLeavesTheFaultState : Prop :=
  (∀ s t : State, s.status.err = true → step s = .next t → t.status.err = false →
    ∃ p rest, s.host = .reset p :: rest) ∧
  (∀ (s : State) (p : Option Cmd) (rest : List HostAction), s.host = .reset p :: rest →
    ∃ t, step s = .next t ∧ t.status.err = false ∧ t.w = 0#64 ∧ t.tables = buildTables s.cfg.poly) ∧
  (∀ (s : State) (c : Cmd), s.status.err = true →
    ∃ t, applyAction (.cmd c) s = .next t ∧ t.status = s.status ∧ t.w = s.w)

/-- R26: `ERR` is set only by a command's fault entry and cleared only by reset; a step that leaves it as it
was leaves all of STATUS as it was, but for a reset. -/
def Obligations.ErrIsSetByFaultEntryAndClearedByResetOnly : Prop :=
  ∀ s t : State, step s = .next t → t.status ≠ s.status →
    (∃ c rest, s.host = .cmd c :: rest ∧ s.status.err = false ∧ t.status.err = true ∧
      t.status.fop = opOf c) ∨
    (∃ p rest, s.host = .reset p :: rest ∧ t.status = Status.reset)

/-- R206: after a fault `W` is unobservable until reset: two states that differ in `W` alone answer every
run of host actions alike, and are equal once a reset is among them. -/
def Obligations.AccumulatorIsUnobservableAfterAFault : Prop :=
  ∀ (acts : List HostAction) (s t : State) (x : Word), s.status.err = true → applyAll acts s = .next t →
    ∃ u, applyAll acts { s with w := x } = .next u ∧ u.resps = t.resps ∧ u.status = t.status ∧
      ((∃ p, HostAction.reset p ∈ acts) → u = t)

/-- R214 (b): the context of an invocation is exactly `W`: whatever commands another invocation runs without
faulting, loading back the saved `W` restores every part of the state but the record of responses. The same
of a run of host actions with attaches among them, but for the sequence, which stays as attached. -/
def Obligations.SavingAndRestoringTheAccumulatorRestoresTheContext : Prop :=
  (∀ (is : List Instr) (s t : State), s.status.err = false → execAll is s = .next t →
    t.status.err = false →
    exec (.ldw s.w) t = .next { s with resps := t.resps ++ [.ack] }) ∧
  (∀ (acts : List HostAction) (s t : State), s.status.err = false → (∀ p, HostAction.reset p ∉ acts) →
    applyAll acts s = .next t → t.status.err = false →
    exec (.ldw s.w) t = .next
      { s with seq := t.seq, seqLen := t.seqLen, resps := t.resps ++ [.ack] })

/-! ### Reset, attach, invariants -/

/-- R30: the value of every piece of state after reset, with `SEQLEN = 0` at the start of a run. -/
def Obligations.ResetStateHasTheStatedValues : Prop :=
  State.reset.w = 0x0000000000000000#64 ∧
  State.reset.status.err = false ∧ causeCode State.reset.status.cause = 0#8 ∧
  State.reset.status.fop = 0#8 ∧ statusWord State.reset.status = 0#64 ∧
  State.reset.cfg.poly = 0x0060034000F0D50A#64 ∧
  (∀ (k : Fin 8) (n : Byte),
    tableRead State.reset.tables k n = tableEntry 0x0060034000F0D50A#64 k.val n.toNat) ∧
  State.reset.seqLen = 0

/-- R231: the reset sequence, applied in any state and with or without a command in progress: `W` and STATUS
become 0, the tables are rebuilt from POLY, `SEQ` and `SEQLEN` are not touched, and no response is
issued, for the reset or for the command it cuts off (R215, R230). -/
def Obligations.ResetSequenceRebuildsAndTouchesNoSequence : Prop :=
  (∀ (s : State) (p : Option Cmd) (rest : List HostAction), s.host = .reset p :: rest →
    step s = .next
      { s with
        host := rest
        status := { err := false, cause := .noCause, fop := 0#8 }
        w := 0#64
        tables := buildTables s.cfg.poly }) ∧
  (∀ (s t : State) (p : Option Cmd), Inv s → applyAction (.reset p) s = .next t → t.tables = s.tables)

/-- R215: an attach of at most `SEQ_MAX` bytes replaces `SEQ` and `SEQLEN` as a whole, byte `a` of the list
at address `a`, in every state, the fault state among them; nothing else changes and there is no
response. -/
def Obligations.AttachReplacesTheSequence : Prop :=
  ∀ (s : State) (bytes : List Byte) (rest : List HostAction), s.host = .attach bytes :: rest →
    bytes.length ≤ s.cfg.seqMax →
    ∃ m : Memory, step s = .next { s with host := rest, seq := m, seqLen := bytes.length } ∧
      (∀ (a : Nat) (h : a < bytes.length), memByte m a = bytes[a]) ∧
      Memory.wf m ∧ Memory.below bytes.length m

/-- Log entry 6, the model's choice on the host duty "never attach more than SEQ_MAX bytes" of R215: to refuse
such an attach by name. -/
def Obligations.OverlongAttachIsRefusedByName : Prop :=
  ∀ (s : State) (bytes : List Byte) (rest : List HostAction), s.host = .attach bytes :: rest →
    s.cfg.seqMax < bytes.length → step s = .refused .attachOverSeqMax

/-- From every state that meets the invariant a step gives a state that meets it. The invariant is that of R32
(`T = Tables(POLY)`) with the legal values of STATUS (R25), the constraint on `SEQ_MAX` and `SEQLEN` (R6,
R20), and the model's own canonical form of `SEQ` (log entry 7). -/
def Obligations.EveryStepKeepsTheInvariant : Prop :=
  ∀ s t : State, Inv s → step s = .next t → Inv t

/-- R32: `ERR = 0` exactly when `CAUSE = 0` and `T = Tables(POLY)` hold after every reset and are kept by every
step, the reserved bits of STATUS are 0 always, and two engines with the same POLY have equal tables after
reset, hence equal fingerprints for equal input. -/
def Obligations.InvariantsOfTheStateHoldForever : Prop :=
  (∀ s t : State, step s = .next t →
    ((statusWord s.status).extractLsb' 0 1 = 0#1 ↔ (statusWord s.status).extractLsb' 8 8 = 0#8) →
    s.tables = buildTables s.cfg.poly →
    ((statusWord t.status).extractLsb' 0 1 = 0#1 ↔ (statusWord t.status).extractLsb' 8 8 = 0#8) ∧
      t.tables = buildTables t.cfg.poly) ∧
  (∀ (s : State) (p : Option Cmd), ∃ t, applyAction (.reset p) s = .next t ∧
    ((statusWord t.status).extractLsb' 0 1 = 0#1 ↔ (statusWord t.status).extractLsb' 8 8 = 0#8) ∧
    t.tables = buildTables t.cfg.poly) ∧
  (∀ s : State, (statusWord s.status).extractLsb' 1 7 = 0#7 ∧ (statusWord s.status).extractLsb' 24 40 = 0#40) ∧
  (∀ (s u t v : State) (p q : Option Cmd), s.cfg.poly = u.cfg.poly →
    applyAction (.reset p) s = .next t → applyAction (.reset q) u = .next v →
    t.tables = v.tables ∧ ∀ (A : Nat → Byte) (off len : Nat) (seed : Word),
      hashBytes t.tables A off len seed = hashBytes v.tables A off len seed)

/-- R30, R32: the reset state meets the invariant. -/
def Obligations.ResetStateMeetsTheInvariant : Prop := Inv State.reset

/-! ### Construction and the fold -/

/-- R100: the mods sequence, 64 entries, the test on bit 63 before the shift. -/
def Obligations.ModsFollowTheRecurrence : Prop :=
  ∀ poly : Word, (mods poly).length = 64 ∧ (mods poly)[0]? = some poly ∧
    ∀ (i : Nat) (m : Word), i < 63 → (mods poly)[i]? = some m →
      (mods poly)[i + 1]? = some (if m.getLsbD 63 = true then (m <<< 1) ^^^ poly else m <<< 1)

/-- R101: every entry is the XOR of the mods its index selects; the empty index gives 0, a single bit gives
one mods entry; and the source's accumulation from all-zero tables reaches the same tables. -/
def Obligations.TableEntriesAreXorsOfModsAndAccumulationReachesThem : Prop :=
  (∀ (poly : Word) (k : Fin 8) (n : Byte), tableRead (buildTables poly) k n =
    ((List.range 8).filter (fun j => n.getLsbD j)).foldl (fun e j => e ^^^ modsAt poly (j + 8 * k.val)) 0#64) ∧
  (∀ (poly : Word) (k : Fin 8), tableRead (buildTables poly) k 0#8 = 0#64) ∧
  (∀ (poly : Word) (k : Fin 8) (j : Nat), j < 8 →
    tableRead (buildTables poly) k (1#8 <<< j) = modsAt poly (j + 8 * k.val)) ∧
  (∀ poly : Word, accumulateTables poly = buildTables poly)

/-- R103: each table is linear in its index, so determined by its eight entries at 1, 2, 4, ..., 128, and the
XOR of all 256 entries of a table is 0. -/
def Obligations.TablesAreLinearInTheirIndex : Prop :=
  (∀ (poly : Word) (k : Fin 8) (a b : Byte), tableRead (buildTables poly) k (a ^^^ b) =
    tableRead (buildTables poly) k a ^^^ tableRead (buildTables poly) k b) ∧
  (∀ (poly : Word) (k : Fin 8) (n : Byte), tableRead (buildTables poly) k n =
    xorBelow 8 (fun j => if n.getLsbD j then tableRead (buildTables poly) k (1#8 <<< j) else 0#64)) ∧
  (∀ (poly : Word) (k : Fin 8),
    xorBelow 256 (fun n => tableRead (buildTables poly) k (BitVec.ofNat 8 n)) = 0#64)

/-- R127 (a) to (c): the fold is linear, and bit `b` of `w` selects `mods[b]`. -/
def Obligations.FoldIsTheXorOfTheModsItsBitsSelect : Prop :=
  (∀ poly : Word, fold (buildTables poly) 0#64 = 0#64) ∧
  (∀ poly a b : Word,
    fold (buildTables poly) (a ^^^ b) = fold (buildTables poly) a ^^^ fold (buildTables poly) b) ∧
  (∀ poly w : Word, fold (buildTables poly) w =
    xorBelow 64 (fun b => if w.getLsbD b then modsAt poly b else 0#64)) ∧
  (∀ (poly : Word) (b : Nat), b < 64 → fold (buildTables poly) (1#64 <<< b) = modsAt poly b)

/-- R106: `mods[i] = x^(64+i) mod P(x)`. -/
def Obligations.ModsArePowersOfXModuloTheGenerator : Prop :=
  ∀ (poly : Word) (i : Nat), i < 64 →
    polyOf (modsAt poly i) = Polynomial.modByMonic (Polynomial.X ^ (64 + i)) (generator poly)

/-- R127 (d): `Fold(w) = (w(x) * x^64) mod P(x)`. -/
def Obligations.FoldIsMultiplicationByX64ModuloTheGenerator : Prop :=
  ∀ poly w : Word, polyOf (fold (buildTables poly) w) =
    Polynomial.modByMonic (polyOf w * Polynomial.X ^ 64) (generator poly)

/-- R128: from `W = 0`, `n mod 8` SHB commands and then `n div 8` FOLDW commands over the `n` bytes of a
message leave `W = M(x) mod P(x)`. From any `W`, that value is first shifted left by `8r` bits inside 64
bits, `r` the number of head bytes (so by nothing when `r = 0`), and the result is
`(S'(x) * x^(64q) + M(x)) mod P`. -/
def Obligations.FingerprintIsTheMessageModuloTheGenerator : Prop :=
  (∀ (s : State) (bs : List Byte), s.status.err = false → s.tables = buildTables s.cfg.poly → s.w = 0#64 →
    ∃ t, execAll ((bs.take (bs.length % 8)).map .shb ++ foldBytes (bs.drop (bs.length % 8))) s = .next t ∧
      polyOf t.w = Polynomial.modByMonic (messagePoly bs) (generator s.cfg.poly)) ∧
  (∀ (s : State) (bs : List Byte), s.status.err = false → s.tables = buildTables s.cfg.poly →
    ∃ t, execAll ((bs.take (bs.length % 8)).map .shb ++ foldBytes (bs.drop (bs.length % 8))) s = .next t ∧
      polyOf t.w =
        Polynomial.modByMonic
          (polyOf (s.w <<< (8 * (bs.length % 8))) * Polynomial.X ^ (64 * (bs.length / 8)) + messagePoly bs)
          (generator s.cfg.poly))

/-- R130: with bit 0 of POLY clear, as in the documented literal, every mods entry, table entry and fold has
bit 0 clear, so after a FOLDW `W[0] = v[0]`. -/
def Obligations.DocumentedPolynomialLeavesBitZeroClear : Prop :=
  documentedPoly.getLsbD 0 = false ∧
  (∀ poly : Word, poly.getLsbD 0 = false →
    (∀ i, (modsAt poly i).getLsbD 0 = false) ∧
    (∀ (k : Fin 8) (n : Byte), (tableRead (buildTables poly) k n).getLsbD 0 = false) ∧
    (∀ w, (fold (buildTables poly) w).getLsbD 0 = false)) ∧
  (∀ (s t : State) (v : Word), Inv s → s.cfg.poly.getLsbD 0 = false → s.status.err = false →
    exec (.foldw v) s = .next t → t.w.getLsbD 0 = v.getLsbD 0)

/-- Section 8 of 95_test_vectors.md, its three rows. Over POLY = 1 `mods[i] = 2^i` and the fold is the identity;
over POLY = 0x1B the listed mods and folds; over POLY = x^63 all mods entries are equal, `Fold(1)` and
`Fold(2^63)` are that entry, and the fold of all ones is 0. -/
def Obligations.DegeneratePolynomialsFoldAsListed : Prop :=
  (∀ w : Word, fold (buildTables 1#64) w = w) ∧
  (∀ i : Nat, i < 64 → modsAt 1#64 i = 1#64 <<< i) ∧
  (modsAt 0x1B#64 0 = 0x1B#64 ∧ modsAt 0x1B#64 1 = 0x36#64 ∧ modsAt 0x1B#64 63 = 0x80000000000000AF#64 ∧
    fold (buildTables 0x1B#64) 1#64 = 0x1B#64 ∧
    fold (buildTables 0x1B#64) 0x8000000000000000#64 = 0x80000000000000AF#64 ∧
    fold (buildTables 0x1B#64) 0xFFFFFFFFFFFFFFFF#64 = 0xCA#64) ∧
  (∀ i : Nat, modsAt 0x8000000000000000#64 i = 0x8000000000000000#64) ∧
  (fold (buildTables 0x8000000000000000#64) 1#64 = 0x8000000000000000#64 ∧
    fold (buildTables 0x8000000000000000#64) 0x8000000000000000#64 = 0x8000000000000000#64 ∧
    fold (buildTables 0x8000000000000000#64) 0xFFFFFFFFFFFFFFFF#64 = 0#64)

/-! ### Packing, typed macros and the assembler -/

/-- R52, R53: byte `n` of a group stands in bits `[63-8n : 56-8n]`, char `n` in `[63-16n : 48-16n]`, the first
of two integers in `[63:32]`; the same data read as bytes gives the same word. -/
def Obligations.ElementsArePackedBigEndian : Prop :=
  (∀ (A : Nat → Byte) (a n : Nat), n < 8 → (memRead8 A a).extractLsb' (56 - 8 * n) 8 = A (a + n)) ∧
  (∀ (c0 c1 c2 c3 : Half) (n : Nat) (h : n < 4),
    (packChars c0 c1 c2 c3).extractLsb' (48 - 16 * n) 16 = [c0, c1, c2, c3][n]) ∧
  (∀ i0 i1 : Quad, (packInts i0 i1).extractLsb' 32 32 = i0 ∧ (packInts i0 i1).extractLsb' 0 32 = i1) ∧
  (∀ c0 c1 c2 c3 : Half, packChars c0 c1 c2 c3 =
    memRead8 (fun a => ([c0, c1, c2, c3].flatMap be16).getD a 0#8) 0) ∧
  (∀ i0 i1 : Quad, packInts i0 i1 = memRead8 (fun a => ([i0, i1].flatMap be32).getD a 0#8) 0) ∧
  (∀ l : Word, l = memRead8 (fun a => (be64 l).getD a 0#8) 0)

/-- R84: each pseudo-instruction is one real command with its operand assembled as stated. -/
def Obligations.PseudoInstructionsAreOneCommandEach : Prop :=
  encode clrw = 0x010000000000000000#72 ∧
  (∀ i : Quad, encode (ldz32 i) = 0x01#8 ++ (0#32 ++ i)) ∧
  (∀ b0 b1 b2 b3 b4 b5 b6 b7 : Byte,
    encode (foldwB b0 b1 b2 b3 b4 b5 b6 b7) =
      0x04#8 ++ (b0 ++ b1 ++ b2 ++ b3 ++ b4 ++ b5 ++ b6 ++ b7)) ∧
  (∀ c0 c1 c2 c3 : Half, encode (foldwC c0 c1 c2 c3) = 0x04#8 ++ (c0 ++ c1 ++ c2 ++ c3)) ∧
  (∀ i0 i1 : Quad, encode (foldwI i0 i1) = 0x04#8 ++ (i0 ++ i1)) ∧
  (∀ l : Word, encode (foldwL l) = 0x04#8 ++ l)

/-- R161, R162, R164, R165, R166: from any state outside the fault state each macro runs through without a
fault, answers ACKs only, and leaves in `W` the function it is defined to compute. `HASH.STR` computes that of
the string's 16-bit codes, which for ASCII text are the ASCII codes zero-extended. -/
def Obligations.MacrosComputeTheirFunctions : Prop :=
  (∀ (s : State) (seed : Word) (bs : List Byte), s.status.err = false →
    execAll (macroBytes seed bs) s = .next
      { s with
        w := hashByteList s.tables bs seed
        resps := s.resps ++ List.replicate (1 + bs.length % 8 + bs.length / 8) .ack }) ∧
  (∀ (s : State) (cs : List Half), s.status.err = false →
    execAll (macroChars cs) s = .next
      { s with
        w := hashChars s.tables cs
        resps := s.resps ++ List.replicate (1 + cs.length % 4 + cs.length / 4) .ack }) ∧
  (∀ (s : State) (is : List Quad), s.status.err = false →
    execAll (macroInts is) s = .next
      { s with
        w := hashInts s.tables is
        resps := s.resps ++ List.replicate (1 + is.length / 2) .ack }) ∧
  (∀ (s : State) (ls : List Word), s.status.err = false →
    execAll (macroLongs ls) s = .next
      { s with
        w := hashLongs s.tables ls
        resps := s.resps ++ List.replicate (1 + ls.length) .ack }) ∧
  (∀ (s : State) (str : List Char) (cs : List Half), s.status.err = false → stringCodes str = some cs →
    ∃ is, macroStr str = some is ∧ execAll is s = .next
      { s with
        w := hashChars s.tables cs
        resps := s.resps ++ List.replicate (1 + cs.length % 4 + cs.length / 4) .ack }) ∧
  (∀ str : List Char, (∀ c ∈ str, c.toNat < 128) →
    stringCodes str = some (str.map fun c => BitVec.ofNat 16 c.toNat))

/-- R167: each typed variant equals the byte hash, seed 0, of the big-endian serialization, for lists of
every length. -/
def Obligations.TypedHashesEqualTheByteHashOfTheirSerialization : Prop :=
  (∀ (poly : Word) (cs : List Half),
    hashChars (buildTables poly) cs = hashByteList (buildTables poly) (cs.flatMap be16) 0#64) ∧
  (∀ (poly : Word) (is : List Quad),
    hashInts (buildTables poly) is = hashByteList (buildTables poly) (is.flatMap be32) 0#64) ∧
  (∀ (poly : Word) (ls : List Word),
    hashLongs (buildTables poly) ls = hashByteList (buildTables poly) (ls.flatMap be64) 0#64)

/-- R83: an operand that does not fit its field is refused and never truncated; one that fits is taken at
its value. -/
def Obligations.AssemblerRefusesAnOperandThatDoesNotFit : Prop :=
  ∀ (width n : Nat) (cs : List Char), numberOf cs = some n →
    (2 ^ width ≤ n → operand width cs = .error .operandTooWide) ∧
    (n < 2 ^ width → ∃ v : BitVec width, operand width cs = .ok v ∧ v.toNat = n)
end

