-- ==== Sys2Proof/Laws/Construction.lean ====
section
/-! SUPPORT. The small lemmas of the construction: indexed XOR, listed vectors, table reads. -/

namespace Sys2Proof.Machine

/-- An entry of a listed vector. -/
@[simp] theorem tabulate_get {α : Type} (n : Nat) (f : Nat → α) (i : Fin n) :
    (tabulate n f).get i = f i.val := by
  simp only [tabulate, Vector.get]
  simp only [List.getElem_toArray, List.getElem_map, List.getElem_range]
  rfl

/-- A read of built tables is the entry of R101. -/
@[simp] theorem tableRead_buildTables (poly : Word) (k : Fin 8) (i : Byte) :
    tableRead (buildTables poly) k i = tableEntry poly k.val i.toNat := by
  simp [tableRead, buildTables]

/-- Indexed XOR depends on the values below the bound only. -/
theorem xorBelow_congr {n : Nat} {f g : Nat → Word} (h : ∀ k, k < n → f k = g k) :
    xorBelow n f = xorBelow n g := by
  induction n with
  | zero => rfl
  | succ n ih => simp only [xorBelow, ih fun k hk => h k (by omega), h n (by omega)]

/-- Indexed XOR of zeros. -/
theorem xorBelow_zero {n : Nat} {f : Nat → Word} (h : ∀ k, k < n → f k = 0#64) :
    xorBelow n f = 0#64 := by
  induction n with
  | zero => rfl
  | succ n ih => simp only [xorBelow, ih fun k hk => h k (by omega), h n (by omega), BitVec.xor_zero]

/-- Indexed XOR of XORs. -/
theorem xorBelow_xor (n : Nat) (f g : Nat → Word) :
    xorBelow n (fun k => f k ^^^ g k) = xorBelow n f ^^^ xorBelow n g := by
  induction n with
  | zero => simp [xorBelow]
  | succ n ih => simp only [xorBelow, ih]; ac_rfl

/-- Indexed XOR of one value at one index. -/
theorem xorBelow_single {n j : Nat} (hj : j < n) (v : Word) :
    xorBelow n (fun k => if k = j then v else 0#64) = v := by
  induction n with
  | zero => omega
  | succ n ih =>
    by_cases h : j = n
    · subst h
      simp only [xorBelow, if_true]
      rw [xorBelow_zero fun k hk => if_neg (by omega), BitVec.zero_xor]
    · simp only [xorBelow, show n ≠ j from fun e => h e.symm, if_false, BitVec.xor_zero]
      exact ih (by omega)

/-- Indexed XOR over a range in two parts. -/
theorem xorBelow_add (m n : Nat) (f : Nat → Word) :
    xorBelow (m + n) f = xorBelow m f ^^^ xorBelow n (fun k => f (m + k)) := by
  induction n with
  | zero => simp [xorBelow]
  | succ n ih => rw [← Nat.add_assoc]; simp only [xorBelow, ih]; ac_rfl

end Sys2Proof.Machine
end

