-- ==== Sys2Proof/Laws/Decode.lean ====
section
/-! SUPPORT. The fields of a command word: a word is its opcode byte above its operand, and a row's mask
test is a test on the two (R70, R71, R75). -/

namespace Sys2Proof

/-- The high part of a concatenation. -/
theorem extract_high {m n : Nat} (a : BitVec m) (b : BitVec n) : (a ++ b).extractLsb' n m = a := by
  apply BitVec.eq_of_getLsbD_eq
  intro i hi
  simp [BitVec.getLsbD_append, hi]

/-- The low part of a concatenation. -/
theorem extract_low {m n : Nat} (a : BitVec m) (b : BitVec n) : (a ++ b).extractLsb' 0 n = b := by
  apply BitVec.eq_of_getLsbD_eq
  intro i hi
  simp [BitVec.getLsbD_append, hi]

/-- A concatenation determines its parts. -/
theorem append_inj {m n : Nat} {a c : BitVec m} {b d : BitVec n} :
    a ++ b = c ++ d ↔ a = c ∧ b = d := by
  constructor
  · intro h
    exact ⟨by rw [← extract_high a b, h, extract_high], by rw [← extract_low a b, h, extract_low]⟩
  · rintro ⟨rfl, rfl⟩
    rfl

/-- A word is its opcode byte above its operand (R70). -/
theorem opOf_append_immOf (c : Cmd) : opOf c ++ immOf c = c :=
  BitVec.extractLsb'_append_extractLsb' (w := 8) (len := 64) (x := c)

/-- The opcode of a word put together from two parts. -/
@[simp] theorem opOf_append (op : Byte) (imm : Word) : opOf (op ++ imm) = op := extract_high op imm

/-- The operand of a word put together from two parts. -/
@[simp] theorem immOf_append (op : Byte) (imm : Word) : immOf (op ++ imm) = imm := extract_low op imm

/-- A mask that covers the opcode byte and the operand bits `mbz`, against a match with no operand bits:
the opcode is the row's and the covered operand bits are 0. -/
theorem spells_iff (c : Cmd) (op : Byte) (mbz : Word) :
    c &&& (0xFF#8 ++ mbz) = op ++ 0#64 ↔ opOf c = op ∧ immOf c &&& mbz = 0#64 := by
  conv_lhs => rw [← opOf_append_immOf c]
  rw [BitVec.and_append, append_inj, show (0xFF#8 : Byte) = BitVec.allOnes 8 from rfl,
    BitVec.and_allOnes]

/-- Decoding by the opcode byte and the must-be-zero operand bits (R75, R82). -/
theorem decode_eq (c : Cmd) : decode c =
    if opOf c = 0x01#8 then .ok (.ldw (immOf c))
    else if opOf c = 0x02#8 ∧ immOf c &&& 0xFFFFFFFFFFFFFF00#64 = 0#64 then .ok (.shb (byteOf c))
    else if opOf c = 0x03#8 ∧ immOf c &&& 0xFFFFFFFFFFFF0000#64 = 0#64 then .ok (.shh (halfOf c))
    else if opOf c = 0x04#8 then .ok (.foldw (immOf c))
    else if opOf c = 0x08#8 then .ok (.hashb (offOf c) (lenOf c))
    else if opOf c = 0x10#8 ∧ immOf c = 0#64 then .ok .rdw
    else if opOf c = 0x11#8 ∧ immOf c = 0#64 then .ok .rdstat
    else if opOf c ∈ assignedOpcodes then .error (.mustBeZero (opOf c))
    else .error (.unassignedOpcode (opOf c)) := by
  have full : ∀ x : Word, x &&& 0xFFFFFFFFFFFFFFFF#64 = x := fun x => BitVec.and_allOnes
  have h1 := spells_iff c 0x01#8 0#64
  have h2 := spells_iff c 0x02#8 0xFFFFFFFFFFFFFF00#64
  have h3 := spells_iff c 0x03#8 0xFFFFFFFFFFFF0000#64
  have h4 := spells_iff c 0x04#8 0#64
  have h5 := spells_iff c 0x08#8 0#64
  have h6 := spells_iff c 0x10#8 0xFFFFFFFFFFFFFFFF#64
  have h7 := spells_iff c 0x11#8 0xFFFFFFFFFFFFFFFF#64
  simp only [BitVec.and_zero, and_true, full] at h1 h2 h3 h4 h5 h6 h7
  unfold decode
  exact ite_congr (propext h1) (fun _ => rfl) fun _ => ite_congr (propext h2) (fun _ => rfl) fun _ =>
    ite_congr (propext h3) (fun _ => rfl) fun _ => ite_congr (propext h4) (fun _ => rfl) fun _ =>
    ite_congr (propext h5) (fun _ => rfl) fun _ => ite_congr (propext h6) (fun _ => rfl) fun _ =>
    ite_congr (propext h7) (fun _ => rfl) fun _ => rfl

/-- The opcode byte of an encoding (R70, R75). -/
@[simp] theorem opOf_encode (i : Instr) : opOf (encode i) = opcodeOf i := by
  cases i <;> exact extract_high (m := 8) (n := 64) _ _

end Sys2Proof
end

