-- ==== Sys2Proof/Laws/Memory.lean ====
section
/-! SUPPORT. The byte sequence as cells: reading back what was placed, and the canonical form. -/

namespace Sys2Proof.Machine

/-- Every cell placed from `base` up stands in `[base, base + length)` and does not hold the unlisted
byte. -/
theorem mem_memOfBytes {base : Nat} {bytes : List Byte} {c : Host.Cell}
    (h : c ∈ memOfBytes base bytes) :
    base ≤ c.1 ∧ c.1 < base + bytes.length ∧ c.2 ≠ unlistedByte := by
  induction bytes generalizing base with
  | nil => simp [memOfBytes] at h
  | cons b rest ih =>
    by_cases hb : b = unlistedByte
    · simp only [memOfBytes, hb, if_true] at h
      have := ih h
      exact ⟨by omega, by simp only [List.length_cons]; omega, this.2.2⟩
    · simp only [memOfBytes, hb, if_false, List.mem_cons] at h
      rcases h with rfl | h
      · exact ⟨le_refl _, by simp, hb⟩
      · have := ih h
        exact ⟨by omega, by simp only [List.length_cons]; omega, this.2.2⟩

/-- An address below every cell of the memory reads as the unlisted byte. -/
theorem memByte_of_lt {m : Memory} {a : Nat} (h : ∀ c ∈ m, a < c.1) : memByte m a = unlistedByte := by
  induction m with
  | nil => rfl
  | cons c rest ih =>
    obtain ⟨k, b⟩ := c
    have hk : a < k := h (k, b) (by simp)
    simp only [memByte, show k ≠ a by omega, if_false]
    exact ih fun c hc => h c (by simp [hc])

/-- Byte `n` of a list placed from `base` up is read back at `base + n`. -/
theorem memByte_memOfBytes {base : Nat} {bytes : List Byte} {n : Nat} (h : n < bytes.length) :
    memByte (memOfBytes base bytes) (base + n) = bytes[n] := by
  induction bytes generalizing base n with
  | nil => simp at h
  | cons b rest ih =>
    cases n with
    | zero =>
      by_cases hb : b = unlistedByte
      · simp only [memOfBytes, hb, if_true, Nat.add_zero, List.getElem_cons_zero]
        exact memByte_of_lt fun c hc => Nat.lt_of_succ_le (mem_memOfBytes hc).1
      · simp [memOfBytes, hb, memByte]
    | succ n =>
      have hn : n < rest.length := by simpa using h
      have hr := ih (base := base + 1) hn
      have he : base + (n + 1) = base + 1 + n := by omega
      by_cases hb : b = unlistedByte
      · simpa only [memOfBytes, hb, if_true, he, List.getElem_cons_succ] using hr
      · simp only [memOfBytes, hb, if_false, memByte, List.getElem_cons_succ]
        rw [if_neg (by omega), he, hr]

/-- Placing bytes gives the canonical form. -/
theorem memOfBytes_wf (base : Nat) (bytes : List Byte) : Memory.wf (memOfBytes base bytes) := by
  refine ⟨?_, fun c hc => (mem_memOfBytes hc).2.2⟩
  induction bytes generalizing base with
  | nil => exact List.Pairwise.nil
  | cons b rest ih =>
    by_cases hb : b = unlistedByte
    · simpa only [memOfBytes, hb, if_true] using ih (base + 1)
    · simp only [memOfBytes, hb, if_false]
      exact List.pairwise_cons.2 ⟨fun c hc => Nat.lt_of_succ_le (mem_memOfBytes hc).1, ih (base + 1)⟩

/-- Bytes placed from 0 up stand below their number. -/
theorem memOfBytes_below (bytes : List Byte) : Memory.below bytes.length (memOfBytes 0 bytes) :=
  fun c hc => by simpa using (mem_memOfBytes hc).2.1

/-- The memory of the reset state has the canonical form. -/
theorem reset_seq_wf : Memory.wf State.reset.seq := ⟨List.Pairwise.nil, by simp [State.reset]⟩

end Sys2Proof.Machine
end

