-- ==== Sys2Proof/Laws/State.lean ====
section
/-! SUPPORT. What each named update of the state does to each field: one lemma per field per update. -/

namespace Sys2Proof.Machine

/-! ### `setW` -/

@[simp] theorem setW_cfg (s : State) (v : Word) : (setW s v).cfg = s.cfg := rfl
@[simp] theorem setW_w (s : State) (v : Word) : (setW s v).w = v := rfl
@[simp] theorem setW_status (s : State) (v : Word) : (setW s v).status = s.status := rfl
@[simp] theorem setW_tables (s : State) (v : Word) : (setW s v).tables = s.tables := rfl
@[simp] theorem setW_seq (s : State) (v : Word) : (setW s v).seq = s.seq := rfl
@[simp] theorem setW_seqLen (s : State) (v : Word) : (setW s v).seqLen = s.seqLen := rfl
@[simp] theorem setW_host (s : State) (v : Word) : (setW s v).host = s.host := rfl
@[simp] theorem setW_resps (s : State) (v : Word) : (setW s v).resps = s.resps := rfl

/-! ### `setStatus` -/

@[simp] theorem setStatus_cfg (s : State) (st : Status) : (setStatus s st).cfg = s.cfg := rfl
@[simp] theorem setStatus_w (s : State) (st : Status) : (setStatus s st).w = s.w := rfl
@[simp] theorem setStatus_status (s : State) (st : Status) : (setStatus s st).status = st := rfl
@[simp] theorem setStatus_tables (s : State) (st : Status) : (setStatus s st).tables = s.tables := rfl
@[simp] theorem setStatus_seq (s : State) (st : Status) : (setStatus s st).seq = s.seq := rfl
@[simp] theorem setStatus_seqLen (s : State) (st : Status) : (setStatus s st).seqLen = s.seqLen := rfl
@[simp] theorem setStatus_host (s : State) (st : Status) : (setStatus s st).host = s.host := rfl
@[simp] theorem setStatus_resps (s : State) (st : Status) : (setStatus s st).resps = s.resps := rfl

/-! ### `setTables` -/

@[simp] theorem setTables_cfg (s : State) (t : Tables) : (setTables s t).cfg = s.cfg := rfl
@[simp] theorem setTables_w (s : State) (t : Tables) : (setTables s t).w = s.w := rfl
@[simp] theorem setTables_status (s : State) (t : Tables) : (setTables s t).status = s.status := rfl
@[simp] theorem setTables_tables (s : State) (t : Tables) : (setTables s t).tables = t := rfl
@[simp] theorem setTables_seq (s : State) (t : Tables) : (setTables s t).seq = s.seq := rfl
@[simp] theorem setTables_seqLen (s : State) (t : Tables) : (setTables s t).seqLen = s.seqLen := rfl
@[simp] theorem setTables_host (s : State) (t : Tables) : (setTables s t).host = s.host := rfl
@[simp] theorem setTables_resps (s : State) (t : Tables) : (setTables s t).resps = s.resps := rfl

/-! ### `setSeq` -/

@[simp] theorem setSeq_cfg (s : State) (m : Memory) (n : Nat) : (setSeq s m n).cfg = s.cfg := rfl
@[simp] theorem setSeq_w (s : State) (m : Memory) (n : Nat) : (setSeq s m n).w = s.w := rfl
@[simp] theorem setSeq_status (s : State) (m : Memory) (n : Nat) : (setSeq s m n).status = s.status := rfl
@[simp] theorem setSeq_tables (s : State) (m : Memory) (n : Nat) : (setSeq s m n).tables = s.tables := rfl
@[simp] theorem setSeq_seq (s : State) (m : Memory) (n : Nat) : (setSeq s m n).seq = m := rfl
@[simp] theorem setSeq_seqLen (s : State) (m : Memory) (n : Nat) : (setSeq s m n).seqLen = n := rfl
@[simp] theorem setSeq_host (s : State) (m : Memory) (n : Nat) : (setSeq s m n).host = s.host := rfl
@[simp] theorem setSeq_resps (s : State) (m : Memory) (n : Nat) : (setSeq s m n).resps = s.resps := rfl

/-! ### `setHost` -/

@[simp] theorem setHost_cfg (s : State) (acts : List HostAction) : (setHost s acts).cfg = s.cfg := rfl
@[simp] theorem setHost_w (s : State) (acts : List HostAction) : (setHost s acts).w = s.w := rfl
@[simp] theorem setHost_status (s : State) (acts : List HostAction) : (setHost s acts).status = s.status := rfl
@[simp] theorem setHost_tables (s : State) (acts : List HostAction) : (setHost s acts).tables = s.tables := rfl
@[simp] theorem setHost_seq (s : State) (acts : List HostAction) : (setHost s acts).seq = s.seq := rfl
@[simp] theorem setHost_seqLen (s : State) (acts : List HostAction) : (setHost s acts).seqLen = s.seqLen := rfl
@[simp] theorem setHost_host (s : State) (acts : List HostAction) : (setHost s acts).host = acts := rfl
@[simp] theorem setHost_resps (s : State) (acts : List HostAction) : (setHost s acts).resps = s.resps := rfl

/-! ### `respond` -/

@[simp] theorem respond_cfg (s : State) (r : Resp) : (respond s r).cfg = s.cfg := rfl
@[simp] theorem respond_w (s : State) (r : Resp) : (respond s r).w = s.w := rfl
@[simp] theorem respond_status (s : State) (r : Resp) : (respond s r).status = s.status := rfl
@[simp] theorem respond_tables (s : State) (r : Resp) : (respond s r).tables = s.tables := rfl
@[simp] theorem respond_seq (s : State) (r : Resp) : (respond s r).seq = s.seq := rfl
@[simp] theorem respond_seqLen (s : State) (r : Resp) : (respond s r).seqLen = s.seqLen := rfl
@[simp] theorem respond_host (s : State) (r : Resp) : (respond s r).host = s.host := rfl
@[simp] theorem respond_resps (s : State) (r : Resp) : (respond s r).resps = s.resps ++ [r] := rfl

/-! ### Fault entry (R204) and the reset sequence (R231) -/

@[simp] theorem raise_cfg (c : Cause) (op : Byte) (s : State) : (raise c op s).cfg = s.cfg := rfl
@[simp] theorem raise_w (c : Cause) (op : Byte) (s : State) : (raise c op s).w = s.w := rfl
@[simp] theorem raise_status (c : Cause) (op : Byte) (s : State) : (raise c op s).status = { err := true, cause := c, fop := op } := rfl
@[simp] theorem raise_tables (c : Cause) (op : Byte) (s : State) : (raise c op s).tables = s.tables := rfl
@[simp] theorem raise_seq (c : Cause) (op : Byte) (s : State) : (raise c op s).seq = s.seq := rfl
@[simp] theorem raise_seqLen (c : Cause) (op : Byte) (s : State) : (raise c op s).seqLen = s.seqLen := rfl
@[simp] theorem raise_host (c : Cause) (op : Byte) (s : State) : (raise c op s).host = s.host := rfl
@[simp] theorem raise_resps (c : Cause) (op : Byte) (s : State) : (raise c op s).resps = s.resps ++ [.nak c] := rfl

@[simp] theorem resetEngine_cfg (s : State) : (resetEngine s).cfg = s.cfg := rfl
@[simp] theorem resetEngine_w (s : State) : (resetEngine s).w = 0#64 := rfl
@[simp] theorem resetEngine_status (s : State) : (resetEngine s).status = Status.reset := rfl
@[simp] theorem resetEngine_tables (s : State) : (resetEngine s).tables = buildTables s.cfg.poly := rfl
@[simp] theorem resetEngine_seq (s : State) : (resetEngine s).seq = s.seq := rfl
@[simp] theorem resetEngine_seqLen (s : State) : (resetEngine s).seqLen = s.seqLen := rfl
@[simp] theorem resetEngine_host (s : State) : (resetEngine s).host = s.host := rfl
@[simp] theorem resetEngine_resps (s : State) : (resetEngine s).resps = s.resps := rfl

end Sys2Proof.Machine
end

