-- ==== Sys2Proof/Laws/Ops.lean ====
section
/-! SUPPORT. What each shared operation can do, said once. -/

namespace Sys2Proof.Machine

/-- Outside the fault state the command runs. -/
theorem unlessFaulted_of_ok {s : State} {run : State → Host.Outcome State Fault Refusal}
    (h : s.status.err = false) : unlessFaulted s run = run s := by
  simp [unlessFaulted, h]

/-- In the fault state the command is answered NAK and changes nothing (R205). -/
theorem unlessFaulted_of_err {s : State} {run : State → Host.Outcome State Fault Refusal}
    (h : s.status.err = true) : unlessFaulted s run = .next (respond s (.nak s.status.cause)) := by
  simp [unlessFaulted, h]

/-- The two ways a guarded command answers a next state. -/
theorem unlessFaulted_next {s t : State} {run : State → Host.Outcome State Fault Refusal}
    (h : unlessFaulted s run = .next t) :
    (s.status.err = true ∧ t = respond s (.nak s.status.cause)) ∨
      (s.status.err = false ∧ run s = .next t) := by
  cases he : s.status.err with
  | true => rw [unlessFaulted_of_err he] at h; cases h; exact .inl ⟨rfl, rfl⟩
  | false => rw [unlessFaulted_of_ok he] at h; exact .inr ⟨rfl, h⟩

/-- An attach that answers a next state was no longer than `SEQ_MAX`. -/
theorem attachSeq_next {bytes : List Byte} {s t : State} (h : attachSeq bytes s = .next t) :
    bytes.length ≤ s.cfg.seqMax ∧ t = setSeq s (memOfBytes 0 bytes) bytes.length := by
  unfold attachSeq at h
  split at h
  · cases h; exact ⟨‹_›, rfl⟩
  · cases h

end Sys2Proof.Machine
end

