-- ==== Sys2Proof/Laws/Exec.lean ====
section
/-! SUPPORT. What a command can do, said once: the ways `exec` answers a next state. -/

namespace Sys2Proof.Machine

/-- Every command answers a next state (R10). -/
theorem exec_answers (i : Instr) (s : State) : ∃ t, exec i s = .next t := by
  cases i <;>
    simp only [exec, execLdw, execShb, execShh, execFoldw, execHashb, execRdw, execRdstat, unlessFaulted, ackW] <;>
    (try split_ifs) <;> exact ⟨_, rfl⟩

/-- A guarded command that ends in `ackW` answers NAK and changes nothing, or writes `W` and answers ACK. -/
theorem guarded_ackW_cases {s t : State} {f : State → Word}
    (h : unlessFaulted s (fun u => ackW u (f u)) = .next t) :
    (∃ r, t = respond s r) ∨ (s.status.err = false ∧ ∃ v, t = respond (setW s v) .ack) := by
  rcases unlessFaulted_next h with ⟨_, rfl⟩ | ⟨he, h⟩
  · exact .inl ⟨_, rfl⟩
  · cases h
    exact .inr ⟨he, _, rfl⟩

/-- A command either answers and changes nothing, or, outside the fault state, writes `W` and answers ACK,
or, outside the fault state and for HASHB alone, takes InvalidArgument. -/
theorem exec_cases {i : Instr} {s t : State} (h : exec i s = .next t) :
    (∃ r, t = respond s r) ∨ (s.status.err = false ∧ ∃ v, t = respond (setW s v) .ack) ∨
      (s.status.err = false ∧ (∃ off len, i = .hashb off len) ∧ t = raise .invalidArgument 0x08#8 s) := by
  cases i with
  | ldw v => simp only [exec, execLdw] at h; exact (guarded_ackW_cases h).imp_right .inl
  | shb b => simp only [exec, execShb] at h; exact (guarded_ackW_cases h).imp_right .inl
  | shh c => simp only [exec, execShh] at h; exact (guarded_ackW_cases h).imp_right .inl
  | foldw v => simp only [exec, execFoldw] at h; exact (guarded_ackW_cases h).imp_right .inl
  | hashb off len =>
    simp only [exec, execHashb] at h
    rcases unlessFaulted_next h with ⟨_, rfl⟩ | ⟨he, h⟩
    · exact .inl ⟨_, rfl⟩
    · split_ifs at h <;> cases h
      · exact .inr (.inl ⟨he, _, rfl⟩)
      · exact .inr (.inr ⟨he, ⟨off, len, rfl⟩, rfl⟩)
  | rdw =>
    simp only [exec, execRdw] at h
    rcases unlessFaulted_next h with ⟨_, rfl⟩ | ⟨_, h⟩
    · exact .inl ⟨_, rfl⟩
    · cases h
      exact .inl ⟨_, rfl⟩
  | rdstat =>
    simp only [exec, execRdstat] at h
    cases h
    exact .inl ⟨_, rfl⟩

end Sys2Proof.Machine
end

