-- ==== Sys2Proof/Laws/PerInstr.lean ====
section
/-! SUPPORT. Statements made per instruction: every command is well formed, and its encoding carries the
opcode of its row (R71, R75). -/

namespace Sys2Proof.Laws.WellFormedEncoding

/-- The command fits its fields and its word has the opcode byte of its row. -/
def Statement (i : Instr) : Prop := i.wellFormed = true ∧ opOf (encode i) = opcodeOf i

theorem ldw (v : Word) : Statement (.ldw v) :=
  ⟨by simpa [Instr.wellFormed, fitsField] using v.isLt, opOf_encode _⟩

theorem shb (b : Byte) : Statement (.shb b) :=
  ⟨by simpa [Instr.wellFormed, fitsField] using b.isLt, opOf_encode _⟩

theorem shh (c : Half) : Statement (.shh c) :=
  ⟨by simpa [Instr.wellFormed, fitsField] using c.isLt, opOf_encode _⟩

theorem foldw (v : Word) : Statement (.foldw v) :=
  ⟨by simpa [Instr.wellFormed, fitsField] using v.isLt, opOf_encode _⟩

theorem hashb (off len : Quad) : Statement (.hashb off len) :=
  ⟨by simpa [Instr.wellFormed, fitsField] using And.intro off.isLt len.isLt, opOf_encode _⟩

theorem rdw : Statement .rdw := ⟨rfl, opOf_encode _⟩

theorem rdstat : Statement .rdstat := ⟨rfl, opOf_encode _⟩

end Sys2Proof.Laws.WellFormedEncoding
end

