-- ==== Sys2Proof/Laws/Sequence.lean ====
section
/-! SUPPORT. The two loops of `HashBytes`: cut in two, and moved along the sequence. -/

namespace Sys2Proof.Machine

/-- The head loop in two parts. -/
theorem headLoop_add (A : Nat → Byte) (m n s : Nat) (w : Word) :
    headLoop A (m + n) s w = headLoop A n (s + m) (headLoop A m s w) := by
  induction m generalizing s w with
  | zero => simp [headLoop]
  | succ m ih =>
    rw [show m + 1 + n = (m + n) + 1 by omega, headLoop, headLoop, ih,
      show s + 1 + m = s + (m + 1) by omega]

/-- The word loop in two parts. -/
theorem wordLoop_add (t : Tables) (A : Nat → Byte) (m n s : Nat) (w : Word) :
    wordLoop t A (m + n) s w = wordLoop t A n (s + 8 * m) (wordLoop t A m s w) := by
  induction m generalizing s w with
  | zero => simp [wordLoop]
  | succ m ih =>
    rw [show m + 1 + n = (m + n) + 1 by omega, wordLoop, wordLoop, ih,
      show s + 8 + 8 * m = s + 8 * (m + 1) by omega]

/-- Eight byte reads depend on the eight bytes only. -/
theorem memRead8_congr {A B : Nat → Byte} {s u : Nat} (h : ∀ n, n < 8 → A (s + n) = B (u + n)) :
    memRead8 A s = memRead8 B u := by
  have h0 : A s = B u := h 0 (by omega)
  simp only [memRead8, h0, h 1 (by omega), h 2 (by omega), h 3 (by omega), h 4 (by omega),
    h 5 (by omega), h 6 (by omega), h 7 (by omega)]

/-- The head loop depends on the bytes it reads only. -/
theorem headLoop_congr {A B : Nat → Byte} {n s u : Nat} {w : Word}
    (h : ∀ k, k < n → A (s + k) = B (u + k)) : headLoop A n s w = headLoop B n u w := by
  induction n generalizing s u w with
  | zero => rfl
  | succ n ih =>
    have h0 : A s = B u := h 0 (by omega)
    rw [headLoop, headLoop, h0]
    exact ih fun k hk => by
      rw [show s + 1 + k = s + (k + 1) by omega, show u + 1 + k = u + (k + 1) by omega]
      exact h (k + 1) (by omega)

/-- The word loop depends on the bytes it reads only. -/
theorem wordLoop_congr {t : Tables} {A B : Nat → Byte} {q s u : Nat} {w : Word}
    (h : ∀ k, k < 8 * q → A (s + k) = B (u + k)) : wordLoop t A q s w = wordLoop t B q u w := by
  induction q generalizing s u w with
  | zero => rfl
  | succ q ih =>
    have h8 : memRead8 A s = memRead8 B u := memRead8_congr fun n hn => h n (by omega)
    rw [wordLoop, wordLoop, h8]
    exact ih fun k hk => by
      rw [show s + 8 + k = s + (k + 8) by omega, show u + 8 + k = u + (k + 8) by omega]
      exact h (k + 8) (by omega)

end Sys2Proof.Machine
end

