-- ==== Sys2Proof/Tests/Slice0.lean ====
section
/-! SUPPORT. Tests on values the spec lists (95_test_vectors.md unless said otherwise), and a witness for the
hypotheses of every statement that has some. -/

namespace Sys2Proof.Tests

open Sys2Proof.Machine

/-! ### Small states -/

/-- The next state of an outcome, if it has one. -/
def nextOf : Host.Outcome State Fault Refusal → Option State
  | .next s => some s
  | _ => none

/-- The reset state with the given accumulator. -/
def withW (v : Word) : State := setW State.reset v

/-- The reset state with a byte sequence attached. -/
def withSeq (bytes : List Byte) : State := setSeq State.reset (memOfBytes 0 bytes) bytes.length

/-- `"xxABCDEFGHIyy"`, the 13 bytes of section 4.5. -/
def xxSeq : List Byte :=
  [0x78#8, 0x78#8, 0x41#8, 0x42#8, 0x43#8, 0x44#8, 0x45#8, 0x46#8, 0x47#8, 0x48#8, 0x49#8, 0x79#8, 0x79#8]

/-- A state in the fault state: an out-of-bounds HASHB after reset. -/
def faulted : State := raise .invalidArgument 0x08#8 State.reset

/-- The reset state with host actions pending. -/
def pending (acts : List HostAction) : State := setHost State.reset acts

/-- The accumulator after an instruction. -/
def wAfter (i : Instr) (s : State) : Option Word := (nextOf (exec i s)).map (·.w)

/-- The responses after a command word. -/
def respsAfter (c : Cmd) (s : State) : Option (List Resp) := (nextOf (runCmd c s)).map (·.resps)

/-- STATUS as software reads it, after a command word. -/
def statusAfter (c : Cmd) (s : State) : Option Word := (nextOf (runCmd c s)).map (statusWord ·.status)

/-! ### Well-formedness: an ill-formed operand for each field, which the check refuses (R83) -/

theorem test_wellFormed_smoke :
    fitsField 64 (2 ^ 64) = false ∧ fitsField 8 0x100 = false ∧ fitsField 16 0x10000 = false ∧
    fitsField 32 (2 ^ 32) = false ∧ fitsField 8 0xFF = true ∧
    (Instr.hashb 0xFFFFFFFF#32 0xFFFFFFFF#32).wellFormed = true := by decide

/-! ### Decoding: words written out from R71 and R75, bit by bit -/

theorem test_decode_ldw :
    decode (0b00000001#8 ++ 0x00000000DEADBEEF#64) = .ok (.ldw 0x00000000DEADBEEF#64) := by decide
theorem test_decode_shb : decode 0x020000000000000074#72 = .ok (.shb 0x74#8) := by decide
theorem test_decode_shh : decode 0x030000000000001234#72 = .ok (.shh 0x1234#16) := by decide
theorem test_decode_foldw :
    decode 0x040065006C006C006F#72 = .ok (.foldw 0x0065006C006C006F#64) := by decide
theorem test_decode_hashb : decode 0x08000000080000000B#72 = .ok (.hashb 8#32 11#32) := by decide
theorem test_decode_rdw : decode 0x100000000000000000#72 = .ok .rdw := by decide
theorem test_decode_rdstat : decode 0x110000000000000000#72 = .ok .rdstat := by decide
/-- Section 4.8: every word listed there is illegal, and why. -/
theorem test_decode_illegal :
    decode 0x000000000000000000#72 = .error (.unassignedOpcode 0x00#8) ∧
    decode 0xFFFFFFFFFFFFFFFFFF#72 = .error (.unassignedOpcode 0xFF#8) ∧
    decode 0x050000000000000000#72 = .error (.unassignedOpcode 0x05#8) ∧
    decode 0x120000000000000000#72 = .error (.unassignedOpcode 0x12#8) ∧
    decode 0x020000000000000100#72 = .error (.mustBeZero 0x02#8) ∧
    decode 0x028000000000000000#72 = .error (.mustBeZero 0x02#8) ∧
    decode 0x030000000000010000#72 = .error (.mustBeZero 0x03#8) ∧
    decode 0x100000000000000001#72 = .error (.mustBeZero 0x10#8) ∧
    decode 0x110000000000000001#72 = .error (.mustBeZero 0x11#8) := by decide
theorem test_decodeTableWord :
    decodeTableWord 72 0x04DEADBEEFCAFEF00D = some (.foldw 0xDEADBEEFCAFEF00D#64) ∧
    decodeTableWord 72 0 = none := by decide

/-! ### Construction (sections 2, 3 and 8) -/

theorem test_mods :
    modsAt documentedPoly 10 = 0x806D0343C3A4FD0A#64 ∧ modsAt documentedPoly 31 = 0xC0C676540156155E#64 ∧
    modsAt documentedPoly 63 = 0x79D5C68B53DE4E2E#64 := by decide +kernel
theorem test_tableEntry :
    tableEntry documentedPoly 0 0x0F = 0x022012C005548366#64 ∧
    tableEntry documentedPoly 3 0xA5 = 0x6944151A89794F0A#64 ∧
    tableEntry documentedPoly 7 0xFF = 0x0329229410C439F8#64 := by decide +kernel
theorem test_fold_other_polynomial :
    fold (buildTables 0x000000000000001B#64) 0xFFFFFFFFFFFFFFFF#64 = 0x00000000000000CA#64 := by decide

/-! ### Instructions (sections 4.1 to 4.7) -/

theorem test_ldw : wAfter (.ldw 0x1122334455667788#64) (withW 5#64) = some 0x1122334455667788#64 := by decide
theorem test_shb_loses_top_byte :
    wAfter (.shb 0xFF#8) (withW 0x0123456789ABCDEF#64) = some 0x23456789ABCDEFFF#64 := by decide
theorem test_shh_loses_top_char :
    wAfter (.shh 0xBEEF#16) (withW 0x0123456789ABCDEF#64) = some 0x456789ABCDEFBEEF#64 := by decide
theorem test_foldw_all_lanes :
    wAfter (.foldw 0xFEDCBA9876543210#64) (withW 0x0123456789ABCDEF#64) = some 0x45E7D9E9A55C3C2C#64 := by decide
theorem test_foldw_top_lane :
    wAfter (.foldw 0#64) (withW 0x8000000000000000#64) = some 0x79D5C68B53DE4E2E#64 := by decide +kernel
theorem test_hashb_offset : wAfter (.hashb 2#32 9#32) (withSeq xxSeq) = some 0x5A2397057A82DFC3#64 := by decide
theorem test_hashb_whole : wAfter (.hashb 0#32 13#32) (withSeq xxSeq) = some 0x547275D3AA748BAB#64 := by decide
theorem test_rdw :
    respsAfter 0x100000000000000000#72 (withW 0xE3056AEEC1718B14#64) =
      some [.data 0xE3056AEEC1718B14#64] := by decide
theorem test_rdstat_in_fault_state :
    respsAfter 0x110000000000000000#72 faulted =
      some [.nak .invalidArgument, .data 0x0000000000080201#64] := by decide

/-! ### Faults (sections 4.5, 4.7, 4.8 and program 4) -/

theorem test_hashb_out_of_bounds :
    statusAfter 0x080000000500000009#72 (withSeq xxSeq) = some 0x0000000000080201#64 ∧
    statusAfter 0x08FFFFFFFFFFFFFFFF#72 (withSeq xxSeq) = some 0x0000000000080201#64 ∧
    statusAfter 0x080000000E00000000#72 (withSeq xxSeq) = some 0x0000000000080201#64 ∧
    statusAfter 0x080000000D00000000#72 (withSeq xxSeq) = some 0#64 := by decide
theorem test_illegal_word_status :
    statusAfter 0xFFFFFFFFFFFFFFFFFF#72 State.reset = some 0x0000000000FF0101#64 ∧
    statusAfter 0x110000000000000001#72 State.reset = some 0x0000000000110101#64 := by decide
theorem test_first_fault_wins :
    statusAfter 0x000000000000000000#72 faulted = some 0x0000000000080201#64 ∧
    respsAfter 0x110000000000000001#72 faulted =
      some [.nak .invalidArgument, .nak .invalidArgument] := by decide
theorem test_respWord :
    respWord (.data 0x0000000074657374#64) = 0x10000000074657374#66 ∧
    respWord (.nak .invalidArgument) = 0x20000000000000002#66 := by decide

/-! ### Host actions and the step (program 3) -/

theorem test_attach_reads_back :
    (nextOf (step (pending [.attach xxSeq]))).map (fun s => (s.seqLen, memByte s.seq 2, memByte s.seq 12)) =
      some (13, 0x41#8, 0x79#8) := by decide
theorem test_attach_over_seqMax : ∃ s : State, s.cfg.seqMax = 1 ∧
    step (setHost s [.attach [0#8, 0#8]]) = .refused .attachOverSeqMax :=
  ⟨{ State.reset with cfg := { poly := documentedPoly, seqMax := 1 } }, rfl, rfl⟩
theorem test_reset_recovers :
    (nextOf (step (setHost (setW faulted 7#64) [.reset (some 0x110000000000000000#72)]))).map
      (fun s => (s.w, statusWord s.status, s.resps)) = some (0#64, 0#64, [.nak .invalidArgument]) := by decide
theorem test_withFetchWord_runs :
    (nextOf (step (State.reset.withFetchWord 72 0x020000000000000074))).map (fun s => (s.w, s.resps)) =
      some (0x74#64, [.ack]) := by decide

/-! ### Macros and the assembler (section 4.6, programs 1 and 5) -/

theorem test_hashChars_hello :
    hashChars (buildTables documentedPoly) [0x68#16, 0x65#16, 0x6C#16, 0x6C#16, 0x6F#16] =
      0x1765A26C25C54BFF#64 := by decide
theorem test_hashInts :
    hashInts (buildTables documentedPoly) [0xDEADBEEF#32, 1#32, 2#32] = 0x200D615B42F60568#64 := by decide
theorem test_hashLongs :
    hashLongs (buildTables documentedPoly) [1#64, 0xFFFFFFFFFFFFFFFF#64, 0x0123456789ABCDEF#64] =
      0xA3CE4DBCB32C9681#64 := by decide
theorem test_assemble_lines :
    assemble "LDW 0 ; fresh\n FOLDW.C 0x65,0x6C, 108, 0x6F\n\nHASHB 0xB, 8\n.reset".toList = .ok
      [.cmd 0x010000000000000000#72, .cmd 0x040065006C006C006F#72, .cmd 0x080000000B00000008#72,
       .reset none] := by decide
theorem test_assemble_macros :
    assemble "HASH.INTS [-559038737, 1, 2]\nHASH.STR \"hello\"\n.attach \"A;\"".toList = .ok
      [.cmd 0x0100000000DEADBEEF#72, .cmd 0x040000000100000002#72,
       .cmd 0x010000000000000000#72, .cmd 0x030000000000000068#72, .cmd 0x040065006C006C006F#72,
       .attach [0x41#8, 0x3B#8]] := by decide
/-- The model's choices of log entries 20, 21 and 22: a double quote inside a string, a character above ASCII, a
string inside a list. -/
theorem test_assemble_strings :
    assemble "HASH.STR \"a\"b\"".toList = .error .operandCount ∧
    assemble "HASH.STR \"\u00e9\"".toList =
      .ok [.cmd 0x010000000000000000#72, .cmd 0x0300000000000000E9#72] ∧
    assemble ".attach \"\u00e9\"".toList = .error .badCharacter ∧
    assemble ".attach [\"AB\", 0x00]".toList = .error .badNumber := by decide
theorem test_assemble_refuses :
    assemble "SHB 0x100".toList = .error .operandTooWide ∧ assemble "NOP".toList = .error .unknownMnemonic ∧
    assemble "SHB".toList = .error .operandCount ∧ assemble "LDW 0y1".toList = .error .badNumber := by decide

/-! ### Witnesses: concrete states and operands that meet the hypotheses of the statements -/

/-- Meets `Inv` (used by every statement with that premise). -/
theorem witness_inv : Inv (withSeq xxSeq) where
  cfgLegal := by decide
  statusLegal := .inl rfl
  tablesBuilt := rfl
  seqWf := memOfBytes_wf 0 xxSeq
  seqBelow := memOfBytes_below xxSeq
  seqFits := by decide

theorem witness_AcceptedWordIsTheEncodingOfItsInstruction :
    decode 0x0200000000000000FF#72 = .ok (.shb 0xFF#8) := by decide

/-- The last word of each row's range is met. -/
theorem witness_WordSpellsACommandExactlyWhenItsRowMatches :
    decode 0x01FFFFFFFFFFFFFFFF#72 = .ok (.ldw 0xFFFFFFFFFFFFFFFF#64) ∧
    decode 0x0200000000000000FF#72 = .ok (.shb 0xFF#8) ∧
    decode 0x03000000000000FFFF#72 = .ok (.shh 0xFFFF#16) ∧
    decode 0x04FFFFFFFFFFFFFFFF#72 = .ok (.foldw 0xFFFFFFFFFFFFFFFF#64) ∧
    decode 0x08FFFFFFFFFFFFFFFF#72 = .ok (.hashb 0xFFFFFFFF#32 0xFFFFFFFF#32) ∧
    decode 0x100000000000000000#72 = .ok .rdw ∧ decode 0x110000000000000000#72 = .ok .rdstat := by decide

/-- A word of each of the cases (a) to (d) of R82, and the state outside the fault state. -/
theorem witness_IllegalWordsRaiseIllegalCommand :
    (opOf 0#72 ∉ assignedOpcodes) ∧
    (opOf 0x020000000000000100#72 = 0x02#8 ∧ (0x020000000000000100#72 : Cmd).extractLsb' 8 56 ≠ 0#56) ∧
    (opOf 0x030000000000010000#72 = 0x03#8 ∧ (0x030000000000010000#72 : Cmd).extractLsb' 16 48 ≠ 0#48) ∧
    (opOf 0x100000000000000001#72 = 0x10#8 ∧ (0x100000000000000001#72 : Cmd).extractLsb' 0 64 ≠ 0#64) ∧
    (∀ i, decode 0#72 ≠ .ok i) ∧ State.reset.status.err = false :=
  ⟨by decide, ⟨by decide, by decide⟩, ⟨by decide, by decide⟩, ⟨by decide, by decide⟩, fun i h =>
    (nomatch (show decode 0#72 = .error (.unassignedOpcode 0x00#8) by decide).symm.trans h), rfl⟩

theorem witness_StepRunsTheDecodedInstruction :
    (pending [.cmd 0x100000000000000000#72]).host = [.cmd 0x100000000000000000#72] ∧
    decode 0x100000000000000000#72 = .ok .rdw := by decide

/-- The four steps of R76, one state and word each. -/
theorem witness_StepFollowsTheDecodeOrder :
    (respsAfter 0x110000000000000000#72 faulted = some [.nak .invalidArgument, .data 0x80201#64]) ∧
    (respsAfter 0x010000000000000000#72 faulted = some [.nak .invalidArgument, .nak .invalidArgument]) ∧
    (respsAfter 0x010000000000000000#72 State.reset = some [.ack]) ∧
    (respsAfter 0#72 State.reset = some [.nak .illegalCommand]) := by decide

/-- One word for each of the response's cases, HASHB on both sides of its bound. -/
theorem witness_EveryCommandGetsItsOneResponse :
    (pending [.cmd 0#72]).host = [.cmd 0#72] ∧ faulted.status.err = true ∧ State.reset.status.err = false ∧
    respsAfter 0x100000000000000000#72 State.reset = some [.data 0#64] ∧
    respsAfter 0x030000000000000001#72 State.reset = some [.ack] ∧
    respsAfter 0x08000000000000000D#72 (withSeq xxSeq) = some [.ack] ∧
    respsAfter 0x08000000000000000E#72 (withSeq xxSeq) = some [.nak .invalidArgument] := by decide

theorem witness_IdleEngineKeepsEverything : State.reset.host = [] := rfl

/-- Both sides of the test of `ERR`, for the statements about one command in and outside the fault state. -/
theorem witness_err_both : State.reset.status.err = false ∧ faulted.status.err = true := by decide

/-- LDW: outside and inside the fault state, and the word with all operand bits set. -/
theorem witness_LdwLoadsTheAccumulator :
    State.reset.status.err = false ∧ faulted.status.err = true ∧
    (0x01FFFFFFFFFFFFFFFF#72 : Cmd).extractLsb' 64 8 = 0x01#8 := by decide

theorem witness_ShbShiftsAByteInWithoutReduction :
    State.reset.status.err = false ∧ opOf 0x020000000000000100#72 = 0x02#8 ∧
    (0x020000000000000100#72 : Cmd).extractLsb' 8 56 ≠ 0#56 := by decide

theorem witness_ShhShiftsACharInLikeTwoShb :
    State.reset.status.err = false ∧ opOf 0x030000000000010000#72 = 0x03#8 ∧
    (0x030000000000010000#72 : Cmd).extractLsb' 16 48 ≠ 0#48 := by decide

theorem witness_FoldwIsTheNineTermXor :
    State.reset.status.err = false ∧ State.reset.tables = buildTables State.reset.cfg.poly ∧
    State.reset.w = 0#64 ∧ (0x04FFFFFFFFFFFFFFFF#72 : Cmd).extractLsb' 64 8 = 0x04#8 :=
  ⟨rfl, rfl, rfl, by decide⟩

theorem witness_LanesSelectBytesAndZeroLanesContributeNothing :
    ∀ j : Nat, j < 8 → j ≠ 7 → lane 0xFF00000000000000#64 j = 0#8 := by decide

/-- In bounds up to the last byte, and one past it. -/
theorem witness_HashbHashesItsRangeOrRaisesInvalidArgument :
    (withSeq xxSeq).status.err = false ∧ (2#32).toNat + (11#32).toNat ≤ (withSeq xxSeq).seqLen ∧
    (withSeq xxSeq).seqLen < (2#32).toNat + (12#32).toNat ∧
    (0x08FFFFFFFFFFFFFFFF#72 : Cmd).extractLsb' 64 8 = 0x08#8 := by decide

theorem witness_BoundsCheckNeverWrapsAndCoversEmptyRanges :
    Inv (withSeq xxSeq) ∧ (withSeq xxSeq).status.err = false ∧ (0x80000000#32).getLsbD 31 = true ∧
    (withSeq xxSeq).seqLen < (14#32).toNat ∧ (13#32).toNat ≤ (withSeq xxSeq).seqLen :=
  ⟨witness_inv, by decide⟩

theorem witness_EmptyInputReturnsTheSeed :
    (withSeq xxSeq).status.err = false ∧ (13#32).toNat ≤ (withSeq xxSeq).seqLen ∧
    State.reset.status.err = false ∧ State.reset.seqLen = 0 := by decide

theorem witness_HashDependsOnNoByteOutsideTheRange :
    ∀ a, 2 ≤ a → a < 2 + 9 → memByte (withSeq xxSeq).seq a = memByte (memOfBytes 0 (xxSeq.take 11)) a := by
  intro a _ h
  interval_cases a <;> decide

theorem witness_HashbIsItsCommandStream :
    (withSeq xxSeq).status.err = false ∧ (2#32).toNat + (9#32).toNat ≤ (withSeq xxSeq).seqLen := by decide

/-- A first chunk of 3 bytes, later chunks of 8 and 0. -/
theorem witness_ChainingEqualsOneCallForWholeWordTails :
    (xxSeq.take 8).length % 8 = 0 ∧ ∀ chunk ∈ [xxSeq.take 8, []], chunk.length % 8 = 0 := by decide

/-- Two seeds that differ in their top 16 bits, and a range of two bytes (R244). -/
theorem witness_HeadDiscardsTheTopSeedBits :
    (∀ b, b < 64 - 8 * (2 % 8) → (0x0123456789ABCDEF#64).getLsbD b = (0xFFFF456789ABCDEF#64).getLsbD b) ∧
    2 < 8 := by decide

theorem witness_RdwAnswersTheAccumulator :
    State.reset.status.err = false ∧ faulted.status.err = true ∧ opOf 0x100000000000000001#72 = 0x10#8 ∧
    (0x100000000000000001#72 : Cmd).extractLsb' 0 64 ≠ 0#64 := by decide

theorem witness_RdstatAnswersStatusInEveryState :
    State.reset.status.err = false ∧ faulted.status.err = true ∧ opOf 0x118000000000000000#72 = 0x11#8 ∧
    (0x118000000000000000#72 : Cmd).extractLsb' 0 64 ≠ 0#64 := by decide

/-- The clauses of RDSTAT before a fault and after one. -/
theorem witness_RdstatBeforeAndAfterAFault :
    Inv (withSeq xxSeq) ∧ (withSeq xxSeq).status.err = false ∧ faulted.status.err = true :=
  ⟨witness_inv, rfl, rfl⟩

/-- A HASHB word whose range is bad (the last clause of R82). -/
theorem witness_BadRangeWordIsAHashb :
    opOf 0x080000000000000001#72 = 0x08#8 ∧ State.reset.status.err = false ∧
    State.reset.seqLen < ((0x080000000000000001#72 : Cmd).extractLsb' 32 32).toNat +
      ((0x080000000000000001#72 : Cmd).extractLsb' 0 32).toNat := by decide

theorem witness_StatusWordHasTheFieldsOfTheRegister : Inv (withSeq xxSeq) := witness_inv

/-- A next state of each of the four, and of LDW in the fault state. -/
theorem witness_DatapathCommandsChangeOnlyTheAccumulator :
    (∃ t, exec (.ldw 1#64) State.reset = .next t) ∧ (∃ t, exec (.shb 1#8) State.reset = .next t) ∧
    (∃ t, exec (.shh 1#16) State.reset = .next t) ∧ (∃ t, exec (.foldw 1#64) State.reset = .next t) ∧
    (∃ t, exec (.ldw 1#64) faulted = .next t) :=
  ⟨⟨_, rfl⟩, ⟨_, rfl⟩, ⟨_, rfl⟩, ⟨_, rfl⟩, ⟨_, rfl⟩⟩

theorem witness_HashbChangesTheAccumulatorOrStatusNeverBoth :
    (∃ t, exec (.hashb 2#32 9#32) (withSeq xxSeq) = .next t) ∧
    (∃ t, exec (.hashb 5#32 9#32) (withSeq xxSeq) = .next t) := ⟨⟨_, rfl⟩, ⟨_, rfl⟩⟩

theorem witness_ReadoutCommandsChangeNothing :
    (∃ t, exec .rdw State.reset = .next t) ∧ (∃ t, exec .rdstat faulted = .next t) := ⟨⟨_, rfl⟩, ⟨_, rfl⟩⟩

/-- A command, and an attach and a reset that change the sequence and the tables. -/
theorem witness_NoCommandWritesMemory :
    (∃ t, applyAction (.cmd 0#72) State.reset = .next t) ∧
    ((nextOf (step (pending [.attach xxSeq]))).map (fun t => decide (t.seqLen ≠ State.reset.seqLen)) = some true) ∧
    (∃ t, step (setTables (pending [.reset none]) (buildTables 1#64)) = .next t ∧
      tableRead t.tables 0 1#8 ≠ tableRead (buildTables 1#64) 0 1#8) :=
  ⟨⟨_, rfl⟩, by decide, ⟨_, rfl, by decide⟩⟩

theorem witness_NoStepChangesTheConfiguration : ∃ t, step (pending [.attach xxSeq]) = .next t := ⟨_, rfl⟩

/-- A command that runs, an illegal word, and an out-of-bounds HASHB. -/
theorem witness_FaultEntryRecordsTheCauseAndChangesNothingElse :
    State.reset.status.err = false ∧ (∃ t, applyAction (.cmd 0x010000000000000000#72) State.reset = .next t) ∧
    (∃ t, applyAction (.cmd 0#72) State.reset = .next t) ∧
    (∃ t, applyAction (.cmd 0x080000000000000001#72) State.reset = .next t) :=
  ⟨rfl, ⟨_, rfl⟩, ⟨_, rfl⟩, ⟨_, rfl⟩⟩

theorem witness_FaultStateRefusesEveryCommandButRdstat :
    faulted.status.err = true ∧ (0#72 : Cmd) ≠ 0x110000000000000000#72 := by decide

theorem witness_FirstFaultIsKeptUntilReset :
    faulted.status.err = true ∧
    (∀ p, HostAction.reset p ∉ [HostAction.cmd 0#72, .attach [1#8]]) ∧
    (∃ t, applyAll [.cmd 0#72, .attach [1#8]] faulted = .next t) := ⟨rfl, by simp, ⟨_, rfl⟩⟩

theorem witness_OnlyResetLeavesTheFaultState :
    ∃ s t : State, s.status.err = true ∧ s.host = [.reset none] ∧ step s = .next t ∧ t.status.err = false :=
  ⟨setHost faulted [.reset none], _, rfl, rfl, rfl, rfl⟩

/-- STATUS changed by a fault, and by a reset. -/
theorem witness_ErrIsSetByFaultEntryAndClearedByResetOnly :
    (∃ t, step (pending [.cmd 0#72]) = .next t ∧ t.status ≠ State.reset.status) ∧
    (∃ t, step (setHost faulted [.reset none]) = .next t ∧ t.status ≠ faulted.status) :=
  ⟨⟨_, rfl, by decide⟩, ⟨_, rfl, by decide⟩⟩

theorem witness_AccumulatorIsUnobservableAfterAFault :
    faulted.status.err = true ∧
    (∃ t, applyAll [.cmd 0x100000000000000000#72, .reset none] faulted = .next t) ∧
    (∃ p, HostAction.reset p ∈ [HostAction.cmd 0x100000000000000000#72, .reset none]) :=
  ⟨rfl, ⟨_, rfl⟩, ⟨none, by simp⟩⟩

theorem witness_SavingAndRestoringTheAccumulatorRestoresTheContext :
    ∃ t, execAll [.rdw, .ldw 0#64, .shh 0x68#16] State.reset = .next t ∧ t.status.err = false ∧
      State.reset.status.err = false := ⟨_, rfl, rfl, rfl⟩

/-- A run of host actions with an attach among them and no reset. -/
theorem witness_SavingAndRestoringAcrossAnAttach :
    (∀ p, HostAction.reset p ∉ [HostAction.cmd 0x010000000000000000#72, .attach xxSeq]) ∧
    (∃ t, applyAll [.cmd 0x010000000000000000#72, .attach xxSeq] (withW 5#64) = .next t ∧
      t.status.err = false ∧ t.seqLen ≠ (withW 5#64).seqLen) ∧ (withW 5#64).status.err = false :=
  ⟨by simp, ⟨_, rfl, rfl, by decide⟩, rfl⟩

/-- A reset with and without a command in progress, and one in a state of the invariant. -/
theorem witness_ResetSequenceRebuildsAndTouchesNoSequence :
    (pending [.reset (some 0#72)]).host = [.reset (some 0#72)] ∧ (pending [.reset none]).host = [.reset none] ∧
    Inv (withSeq xxSeq) ∧ (∃ t, applyAction (.reset none) (withSeq xxSeq) = .next t) :=
  ⟨rfl, rfl, witness_inv, ⟨_, rfl⟩⟩

theorem witness_AttachReplacesTheSequence :
    (pending [.attach xxSeq]).host = [.attach xxSeq] ∧ xxSeq.length ≤ (pending [.attach xxSeq]).cfg.seqMax :=
  ⟨rfl, by decide⟩

theorem witness_OverlongAttachIsRefusedByName :
    ∃ s : State, s.host = [.attach [0#8, 0#8]] ∧ s.cfg.seqMax < [0#8, 0#8].length :=
  ⟨{ pending [.attach [0#8, 0#8]] with cfg := { poly := documentedPoly, seqMax := 1 } }, rfl, by decide⟩

theorem witness_EveryStepKeepsTheInvariant :
    Inv (withSeq xxSeq) ∧ ∃ t, step (withSeq xxSeq) = .next t := ⟨witness_inv, ⟨_, rfl⟩⟩

/-- The first and last index of each bound, with a value the spec lists. -/
theorem witness_ModsArePowersOfXModuloTheGenerator :
    0 < 64 ∧ 63 < 64 ∧ modsAt documentedPoly 0 = 0x0060034000F0D50A#64 := by decide

theorem witness_TableEntriesAreXorsOfModsAndAccumulationReachesThem :
    0 < 8 ∧ 7 < 8 ∧ (1#8 <<< 7) = 0x80#8 := by decide

/-- The bounds of `mods[i] = 2^i` over POLY = 1, where the next entry would not fit. -/
theorem witness_DegeneratePolynomialsFoldAsListed :
    0 < 64 ∧ 63 < 64 ∧ (1#64 <<< 63) = 0x8000000000000000#64 ∧ (1#64 <<< 64) = 0#64 := by decide

theorem witness_FoldIsTheXorOfTheModsItsBitsSelect :
    0 < 64 ∧ 63 < 64 ∧ (1#64 <<< 63) = 0x8000000000000000#64 := by decide

theorem witness_ElementsArePackedBigEndian :
    7 < 8 ∧ 3 < 4 ∧ (packChars 0x0065#16 0x006C#16 0x006C#16 0x006F#16).extractLsb' (48 - 16 * 3) 16 = 0x006F#16 := by
  decide

/-- A faulting step in a state with both invariants of R32, and two engines of one POLY that differ elsewhere. -/
theorem witness_InvariantsOfTheStateHoldForever :
    (∃ t, step (pending [.cmd 0#72]) = .next t) ∧
    ((statusWord (pending [.cmd 0#72]).status).extractLsb' 0 1 = 0#1 ∧
      (statusWord (pending [.cmd 0#72]).status).extractLsb' 8 8 = 0#8) ∧
    (pending [.cmd 0#72]).tables = buildTables (pending [.cmd 0#72]).cfg.poly ∧
    State.reset.cfg.poly = (withSeq xxSeq).cfg.poly ∧ (∃ t, applyAction (.reset none) State.reset = .next t) ∧
    (∃ t, applyAction (.reset none) (withSeq xxSeq) = .next t) :=
  ⟨⟨_, rfl⟩, by decide, rfl, rfl, ⟨_, rfl⟩, ⟨_, rfl⟩⟩

/-- Entries 8 and 9: bit 63 clear, then set. -/
theorem witness_ModsFollowTheRecurrence :
    (mods documentedPoly)[8]? = some 0x60034000F0D50A00#64 ∧
    (mods documentedPoly)[9]? = some 0xC0068001E1AA1400#64 := by decide

theorem witness_DocumentedPolynomialLeavesBitZeroClear :
    documentedPoly.getLsbD 0 = false ∧ Inv (withSeq xxSeq) ∧ (withSeq xxSeq).cfg.poly.getLsbD 0 = false ∧
    (withSeq xxSeq).status.err = false ∧ (∃ t, exec (.foldw 1#64) (withSeq xxSeq) = .next t) :=
  ⟨by decide, witness_inv, by decide, rfl, ⟨_, rfl⟩⟩

theorem witness_FingerprintIsTheMessageModuloTheGenerator :
    State.reset.status.err = false ∧ State.reset.tables = buildTables State.reset.cfg.poly ∧
    State.reset.w = 0#64 ∧ (withW 5#64).w ≠ 0#64 := ⟨rfl, rfl, rfl, by decide⟩

/-- An ASCII string, its codes those that R162 and R166 list. -/
theorem witness_MacrosComputeTheirFunctions :
    State.reset.status.err = false ∧ (∀ c ∈ "test".toList, c.toNat < 128) ∧
    stringCodes "test".toList = some [0x0074#16, 0x0065#16, 0x0073#16, 0x0074#16] :=
  ⟨rfl, by simp, rfl⟩

/-- 255 fits eight bits, 256 does not. -/
theorem witness_AssemblerRefusesAnOperandThatDoesNotFit :
    numberOf "0x100".toList = some 256 ∧ 2 ^ 8 ≤ 256 ∧ numberOf "255".toList = some 255 ∧ 255 < 2 ^ 8 := by decide

end Sys2Proof.Tests
end

section
/-! SUPPORT. One step, said once: what the step does with the next host action (R10, R215), and which
actions have a next state. -/

namespace Sys2Proof.Machine

/-- With no action pending the step is the idle step. -/
theorem step_of_nil {s : State} (h : s.host = []) : step s = .next s := by
  simp only [step, h, idle]

/-- The step takes the first pending action off the list and applies it. -/
theorem step_of_cons {s : State} {a : HostAction} {rest : List HostAction} (h : s.host = a :: rest) :
    step s = applyAction a (setHost s rest) := by
  simp only [step, h]

/-- A word that decodes is run as its instruction. -/
theorem runCmd_of_ok {c : Cmd} {i : Instr} (h : decode c = .ok i) (s : State) :
    runCmd c s = exec i s := by
  simp only [runCmd, h]

/-- A word that does not decode is an illegal word (R82). -/
theorem runCmd_of_error {c : Cmd} {e : IllegalWord} (h : decode c = .error e) (s : State) :
    runCmd c s = illegalWord (opOf c) s := by
  simp only [runCmd, h]

/-- A guarded command answers a next state if its body does. -/
theorem unlessFaulted_answers {s : State} {run : State → Host.Outcome State Fault Refusal}
    (h : ∃ t, run s = .next t) : ∃ t, unlessFaulted s run = .next t := by
  cases he : s.status.err with
  | true => exact ⟨_, unlessFaulted_of_err he⟩
  | false => rwa [unlessFaulted_of_ok he]

/-- Every command word answers a next state, legal or not (R10, R82). -/
theorem runCmd_answers (c : Cmd) (s : State) : ∃ t, runCmd c s = .next t := by
  cases hd : decode c with
  | ok i => rw [runCmd_of_ok hd]; exact exec_answers i s
  | error e => rw [runCmd_of_error hd]; exact unlessFaulted_answers ⟨_, rfl⟩

/-- An attach within `SEQ_MAX` replaces the sequence (R215). -/
theorem attachSeq_of_le {bytes : List Byte} {s : State} (h : bytes.length ≤ s.cfg.seqMax) :
    attachSeq bytes s = .next (setSeq s (memOfBytes 0 bytes) bytes.length) := by
  rw [attachSeq, if_pos h]

/-- An attach over `SEQ_MAX` is refused (log entry 6). -/
theorem attachSeq_of_gt {bytes : List Byte} {s : State} (h : s.cfg.seqMax < bytes.length) :
    attachSeq bytes s = .refused .attachOverSeqMax := by
  rw [attachSeq, if_neg (Nat.not_le.mpr h)]

/-- An action has a next state unless it is an attach over `SEQ_MAX`, which is refused. -/
theorem applyAction_answers (a : HostAction) (s : State) :
    (∃ t, applyAction a s = .next t) ∨
      ∃ bytes, a = .attach bytes ∧ s.cfg.seqMax < bytes.length ∧
        applyAction a s = .refused .attachOverSeqMax := by
  cases a with
  | cmd c => exact .inl (runCmd_answers c s)
  | attach bytes =>
    rcases Nat.lt_or_ge s.cfg.seqMax bytes.length with hgt | hle
    · exact .inr ⟨bytes, rfl, hgt, attachSeq_of_gt hgt⟩
    · exact .inl ⟨_, attachSeq_of_le hle⟩
  | reset c => exact .inl ⟨resetEngine s, rfl⟩

end Sys2Proof.Machine
end

section
/-! Totality of the step and its link to `exec` (R10). -/

namespace Sys2Proof.Machine

/-- Settles O10, by the next host action: with none the engine is idle, and an action is refused only if it
is an attach over `SEQ_MAX`. -/
theorem everyStepButAnOverlongAttachCompletes : Obligations.EveryStepButAnOverlongAttachCompletes := by
  intro s
  cases hs : s.host with
  | nil => exact .inl ⟨s, step_of_nil hs⟩
  | cons a rest =>
    rw [step_of_cons hs]
    rcases applyAction_answers a (setHost s rest) with hnext | ⟨bytes, rfl, hlen, hrefused⟩
    · exact .inl hnext
    · exact .inr ⟨bytes, rest, rfl, hlen, hrefused⟩

/-- Settles O6, by the step rule for a pending action and the rule for a word that decodes. -/
theorem stepRunsTheDecodedInstruction : Obligations.StepRunsTheDecodedInstruction := by
  intro s c i rest hs hd
  calc step s = runCmd c (setHost s rest) := step_of_cons hs
    _ = exec i { s with host := rest } := runCmd_of_ok hd _

end Sys2Proof.Machine
end

section
/-! SUPPORT. The fields of the register STATUS and the values it holds (R25, R32). -/

namespace Sys2Proof.Machine

/-! ### The fields of the status word -/

theorem statusWord_errField (st : Status) : (statusWord st).extractLsb' 0 1 = BitVec.ofBool st.err :=
  extract_low _ _

theorem statusWord_lowReserved (st : Status) : (statusWord st).extractLsb' 1 7 = 0#7 := by
  refine (BitVec.extractLsb'_append_eq_of_le (by decide)).trans ?_
  exact extract_low _ _

theorem statusWord_causeField (st : Status) : (statusWord st).extractLsb' 8 8 = causeCode st.cause := by
  iterate 2 refine (BitVec.extractLsb'_append_eq_of_le (by decide)).trans ?_
  exact extract_low _ _

theorem statusWord_fopField (st : Status) : (statusWord st).extractLsb' 16 8 = st.fop := by
  iterate 3 refine (BitVec.extractLsb'_append_eq_of_le (by decide)).trans ?_
  exact extract_low _ _

theorem statusWord_highReserved (st : Status) : (statusWord st).extractLsb' 24 40 = 0#40 := by
  iterate 3 refine (BitVec.extractLsb'_append_eq_of_le (by decide)).trans ?_
  exact extract_high _ _

/-- `STATUS` as the OR of its shifted fields. -/
theorem statusWord_eq_or (st : Status) :
    statusWord st = (BitVec.ofBool st.err).setWidth 64 ||| ((causeCode st.cause).setWidth 64 <<< 8) |||
      (st.fop.setWidth 64 <<< 16) := by
  change 0#40 ++ st.fop ++ causeCode st.cause ++ 0#7 ++ BitVec.ofBool st.err = _
  ext i hi
  simp only [BitVec.getElem_append, BitVec.getElem_or, BitVec.getElem_shiftLeft, BitVec.getElem_setWidth,
    Nat.sub_sub]
  grind

theorem statusWord_bit_zero (st : Status) : (statusWord st).getLsbD 0 = st.err := by
  simp [statusWord_eq_or]

/-! ### The values it holds -/

theorem causeCode_cases (k : Cause) : causeCode k = 0#8 ∨ causeCode k = 1#8 ∨ causeCode k = 2#8 := by
  cases k <;> decide

@[simp] theorem causeCode_eq_zero_iff {k : Cause} : causeCode k = 0#8 ↔ k = .noCause := by
  cases k <;> decide

@[simp] theorem statusWord_reset : statusWord Status.reset = 0#64 := by decide

/-- The equivalence of R32, between the fields of the word, is one between the fields of the record. -/
theorem errField_zero_iff_causeField_zero_iff (st : Status) :
    ((statusWord st).extractLsb' 0 1 = 0#1 ↔ (statusWord st).extractLsb' 8 8 = 0#8) ↔
      (st.err = false ↔ st.cause = .noCause) := by
  have herr : BitVec.ofBool st.err = 0#1 ↔ st.err = false := by cases st.err <;> decide
  rw [statusWord_errField, statusWord_causeField, herr, causeCode_eq_zero_iff]

/-- A legal STATUS is 0 or `0x1 | (c << 8) | (op << 16)` with `c` in 1, 2 (R25). -/
theorem statusWord_of_legal {st : Status} (h : st.Legal) :
    statusWord st = 0#64 ∨ ∃ (k : Byte) (op : Byte), (k = 1#8 ∨ k = 2#8) ∧
      statusWord st = 1#64 ||| (k.setWidth 64 <<< 8) ||| (op.setWidth 64 <<< 16) := by
  rcases h with rfl | ⟨herr, hcause⟩
  · exact .inl statusWord_reset
  · have hcode : causeCode st.cause = 1#8 ∨ causeCode st.cause = 2#8 :=
      (causeCode_cases st.cause).resolve_left (mt causeCode_eq_zero_iff.mp hcause)
    exact .inr ⟨causeCode st.cause, st.fop, hcode, by rw [statusWord_eq_or, herr]; rfl⟩

end Sys2Proof.Machine
end

section
/-! SUPPORT. What a step can do, said once: the ways a command word and a host action answer a next state. -/

namespace Sys2Proof.Machine

/-- The opcode byte of a word that decodes is that of its row (R75). -/
theorem opOf_of_decode {c : Cmd} {i : Instr} (h : decode c = .ok i) : opOf c = opcodeOf i := by
  rw [decode_eq] at h
  split_ifs at h <;> cases h <;> simp_all [opcodeOf]

/-- What a command word can do to the state: answer and change nothing else, write `W`, or take an
exception; the last two outside the fault state only. -/
inductive CmdEffect (c : Cmd) (s : State) : State → Prop
  | answer (r : Resp) : CmdEffect c s (respond s r)
  | write (v : Word) (he : s.status.err = false) : CmdEffect c s (respond (setW s v) .ack)
  | fault (k : Cause) (hk : k ≠ .noCause) (he : s.status.err = false) : CmdEffect c s (raise k (opOf c) s)

/-- Every command word, legal or not, has one of these effects (R76, R82). -/
theorem cmdEffect_of_runCmd {c : Cmd} {s t : State} (h : runCmd c s = .next t) : CmdEffect c s t := by
  cases hd : decode c with
  | ok i =>
    rw [runCmd_of_ok hd] at h
    rcases exec_cases h with ⟨r, rfl⟩ | ⟨he, v, rfl⟩ | ⟨he, ⟨off, len, rfl⟩, rfl⟩
    · exact .answer r
    · exact .write v he
    · have hop : opOf c = 0x08#8 := opOf_of_decode hd
      exact hop ▸ .fault .invalidArgument (by decide) he
  | error e =>
    rw [runCmd_of_error hd] at h
    rcases unlessFaulted_next h with ⟨_, rfl⟩ | ⟨he, h⟩
    · exact .answer _
    · cases h
      exact .fault .illegalCommand (by decide) he

/-- What a step can do: idle, or take the next host action off the list and apply it. -/
inductive StepEffect (s : State) : State → Prop
  | idle (hs : s.host = []) : StepEffect s s
  | command {c rest t} (hs : s.host = .cmd c :: rest) (h : CmdEffect c (setHost s rest) t) : StepEffect s t
  | attach {bytes rest} (hs : s.host = .attach bytes :: rest) (hlen : bytes.length ≤ s.cfg.seqMax) :
      StepEffect s (setSeq (setHost s rest) (memOfBytes 0 bytes) bytes.length)
  | reset {p rest} (hs : s.host = .reset p :: rest) : StepEffect s (resetEngine (setHost s rest))

/-- Every step has one of these effects (R10, R215). -/
theorem stepEffect_of_step {s t : State} (h : step s = .next t) : StepEffect s t := by
  cases hs : s.host with
  | nil =>
    rw [step_of_nil hs] at h
    cases h
    exact .idle hs
  | cons a rest =>
    rw [step_of_cons hs] at h
    cases a with
    | cmd c => exact .command hs (cmdEffect_of_runCmd h)
    | attach bytes =>
      obtain ⟨hlen, rfl⟩ := attachSeq_next h
      exact .attach hs hlen
    | reset p =>
      cases h
      exact .reset hs

/-- A command keeps the configuration, the tables and the sequence (R20, R24, R51). -/
theorem CmdEffect.frame {c : Cmd} {s t : State} (h : CmdEffect c s t) :
    t.cfg = s.cfg ∧ t.tables = s.tables ∧ t.seq = s.seq ∧ t.seqLen = s.seqLen := by
  cases h <;> exact ⟨rfl, rfl, rfl, rfl⟩

/-- A command leaves STATUS alone or, outside the fault state, records its exception there (R204). -/
theorem CmdEffect.status {c : Cmd} {s t : State} (h : CmdEffect c s t) :
    t.status = s.status ∨ s.status.err = false ∧
      ∃ k, k ≠ .noCause ∧ t.status = { err := true, cause := k, fop := opOf c } := by
  cases h with
  | answer r => exact .inl rfl
  | write v he => exact .inl rfl
  | fault k hk he => exact .inr ⟨he, k, hk, rfl⟩

/-- A step keeps the configuration (R20, R22). -/
theorem step_cfg {s t : State} (h : step s = .next t) : t.cfg = s.cfg := by
  cases stepEffect_of_step h with
  | idle | attach | reset => rfl
  | command hs hc =>
    obtain ⟨hcfg, _⟩ := hc.frame
    exact hcfg

/-- A step leaves STATUS alone, records an exception of a command there, or resets it (R26). -/
theorem step_status_cases {s t : State} (h : step s = .next t) :
    t.status = s.status ∨
      (∃ c rest k, s.host = .cmd c :: rest ∧ s.status.err = false ∧ k ≠ .noCause ∧
        t.status = { err := true, cause := k, fop := opOf c }) ∨
      (∃ p rest, s.host = .reset p :: rest ∧ t.status = Status.reset) := by
  cases stepEffect_of_step h with
  | idle | attach => exact .inl rfl
  | command hs hc =>
    exact hc.status.imp_right fun ⟨he, k, hk, ht⟩ => .inl ⟨_, _, k, hs, he, hk, ht⟩
  | reset hs => exact .inr (.inr ⟨_, _, hs, rfl⟩)

/-- A step leaves the tables alone or rebuilds them (R24). -/
theorem step_tables_cases {s t : State} (h : step s = .next t) :
    t.tables = s.tables ∨ t.tables = buildTables s.cfg.poly := by
  cases stepEffect_of_step h with
  | idle | attach => exact .inl rfl
  | command hs hc =>
    obtain ⟨_, htables, _⟩ := hc.frame
    exact .inl htables
  | reset hs => exact .inr rfl

/-- A datapath command answers and changes nothing, or writes `W` and answers ACK (R122 to R125). -/
theorem datapath_cases {i : Instr} {s t : State}
    (hi : (∃ v, i = .ldw v) ∨ (∃ b, i = .shb b) ∨ (∃ h, i = .shh h) ∨ (∃ v, i = .foldw v))
    (h : exec i s = .next t) :
    (∃ r, t = respond s r) ∨ (s.status.err = false ∧ ∃ v, t = respond (setW s v) .ack) := by
  rcases hi with ⟨v, rfl⟩ | ⟨b, rfl⟩ | ⟨c, rfl⟩ | ⟨v, rfl⟩
  · exact guarded_ackW_cases (f := fun _ => v) h
  · exact guarded_ackW_cases (f := fun u => headByte u.w b) h
  · exact guarded_ackW_cases (f := fun u => headHalf u.w c) h
  · exact guarded_ackW_cases (f := fun u => wordStep u.tables u.w v) h

end Sys2Proof.Machine
end

section
/-! SUPPORT. The invariant of R32: it holds at reset, and every effect a step can have keeps it. -/

namespace Sys2Proof.Machine

theorem inv_reset : Inv State.reset where
  cfgLegal := by decide
  statusLegal := .inl rfl
  tablesBuilt := rfl
  seqWf := reset_seq_wf
  seqBelow := by simp [State.reset]
  seqFits := Nat.zero_le _

/-- The host's list of actions is no part of the invariant. -/
theorem Inv.setHost {s : State} (h : Inv s) (acts : List HostAction) : Inv (setHost s acts) :=
  { h with }

/-- A command keeps the invariant: an exception gives STATUS a legal value (R204), and the rest of what the
invariant speaks of is not written. -/
theorem Inv.cmdEffect {c : Cmd} {s t : State} (h : Inv s) (hc : CmdEffect c s t) : Inv t := by
  cases hc with
  | answer r => exact { h with }
  | write v he => exact { h with }
  | fault k hk he => exact { h with statusLegal := .inr ⟨rfl, hk⟩ }

/-- An attach within `SEQ_MAX` keeps the invariant: the new cells are canonical and below `SEQLEN` (R57). -/
theorem Inv.attach {s : State} (h : Inv s) {bytes : List Byte} (hlen : bytes.length ≤ s.cfg.seqMax) :
    Inv (setSeq s (memOfBytes 0 bytes) bytes.length) :=
  { h with seqWf := memOfBytes_wf 0 bytes, seqBelow := memOfBytes_below bytes, seqFits := hlen }

/-- The reset sequence keeps the invariant (R231). -/
theorem Inv.resetEngine {s : State} (h : Inv s) : Inv (resetEngine s) :=
  { h with statusLegal := .inl rfl, tablesBuilt := rfl }

theorem Inv.step {s t : State} (h : Inv s) (hstep : step s = .next t) : Inv t := by
  cases stepEffect_of_step hstep with
  | idle => exact h
  | command hs hc => exact (h.setHost _).cmdEffect hc
  | attach hs hlen => exact (h.setHost _).attach hlen
  | reset hs => exact (h.setHost _).resetEngine

/-- Every step keeps the equivalence of `ERR = 0` and `CAUSE = 0` (R32). -/
theorem step_keeps_err_iff_cause {s t : State} (h : step s = .next t)
    (hs : s.status.err = false ↔ s.status.cause = .noCause) :
    t.status.err = false ↔ t.status.cause = .noCause := by
  rcases step_status_cases h with ht | ⟨_, _, k, _, _, hk, ht⟩ | ⟨_, _, _, ht⟩
  · rwa [ht]
  · simpa [ht] using hk
  · simp [ht, Status.reset]

/-- Every step keeps `T = Tables(POLY)` (R32). -/
theorem step_keeps_tables_built {s t : State} (h : step s = .next t)
    (hs : s.tables = buildTables s.cfg.poly) : t.tables = buildTables t.cfg.poly := by
  rw [step_cfg h]
  exact (step_tables_cases h).elim (·.trans hs) id

end Sys2Proof.Machine
end

section
/-! The invariant (R32): kept by every step, and what it says of STATUS and the tables. -/

namespace Sys2Proof.Machine

/-- Settles O44, by the effects a step can have. -/
theorem everyStepKeepsTheInvariant : Obligations.EveryStepKeepsTheInvariant :=
  fun _ _ hinv hstep => hinv.step hstep

/-- Settles O45: the two invariants are each kept by every step; a reset answers `resetEngine`, whose tables are
a function of POLY. -/
theorem invariantsOfTheStateHoldForever : Obligations.InvariantsOfTheStateHoldForever := by
  refine ⟨fun s t hstep herr htables => ?_, fun s p => ?_, fun s => ?_, fun s u t v p q hpoly ht hv => ?_⟩
  · rw [errField_zero_iff_causeField_zero_iff] at herr ⊢
    exact ⟨step_keeps_err_iff_cause hstep herr, step_keeps_tables_built hstep htables⟩
  · exact ⟨resetEngine s, rfl, (errField_zero_iff_causeField_zero_iff _).mpr (by simp [Status.reset]), rfl⟩
  · exact ⟨statusWord_lowReserved _, statusWord_highReserved _⟩
  · cases ht
    cases hv
    have htables : (resetEngine s).tables = (resetEngine u).tables := congrArg buildTables hpoly
    exact ⟨htables, fun A off len seed => by rw [htables]⟩

/-- Settles O46. -/
theorem resetStateMeetsTheInvariant : Obligations.ResetStateMeetsTheInvariant := inv_reset

end Sys2Proof.Machine
end

section
/-! The state: the values of STATUS and of reset, and what a command or a step leaves unchanged. -/

namespace Sys2Proof.Machine

/-- Settles O27, field by field; the values are those of a legal STATUS. -/
theorem statusWordHasTheFieldsOfTheRegister : Obligations.StatusWordHasTheFieldsOfTheRegister :=
  ⟨fun st => ⟨statusWord_bit_zero st, statusWord_lowReserved st, statusWord_causeField st,
      statusWord_fopField st, statusWord_highReserved st⟩,
    causeCode_cases, statusWord_reset, fun _ hinv => statusWord_of_legal hinv.statusLegal⟩

/-- Settles O28: a datapath command answers and changes nothing, or writes `W` outside the fault state. -/
theorem datapathCommandsChangeOnlyTheAccumulator : Obligations.DatapathCommandsChangeOnlyTheAccumulator := by
  intro i s t hi h
  rcases datapath_cases hi h with ⟨r, rfl⟩ | ⟨he, v, rfl⟩
  · exact ⟨rfl, rfl, rfl, rfl, rfl, fun _ => rfl, ⟨r, rfl⟩, fun _ => rfl⟩
  · exact ⟨rfl, rfl, rfl, rfl, rfl, fun _ => rfl, ⟨.ack, rfl⟩, fun herr => by simp [he] at herr⟩

/-- Settles O32, by the effects a step can have. -/
theorem noStepChangesTheConfiguration : Obligations.NoStepChangesTheConfiguration := fun _ _ => step_cfg

/-- Settles O37: STATUS changes by an exception of a command, or by a reset. -/
theorem errIsSetByFaultEntryAndClearedByResetOnly : Obligations.ErrIsSetByFaultEntryAndClearedByResetOnly := by
  intro s t h hne
  rcases step_status_cases h with ht | ⟨c, rest, k, hs, he, _, ht⟩ | hreset
  · exact absurd ht hne
  · exact .inl ⟨c, rest, hs, he, by rw [ht], by rw [ht]⟩
  · exact .inr hreset

/-- Settles O40: the tables are read back entry by entry, the other fields are literals. -/
theorem resetStateHasTheStatedValues : Obligations.ResetStateHasTheStatedValues :=
  ⟨rfl, rfl, rfl, rfl, statusWord_reset, rfl, tableRead_buildTables documentedPoly, rfl⟩

end Sys2Proof.Machine
end

section
/-! SUPPORT. `HashBytes` depends on the bytes of its range alone (R55), and what a step can do to the memories
(R24, R51). -/

namespace Sys2Proof.Machine

/-- Two sequences that hold the same bytes in two ranges of one length give the same hash: the head loop reads
the first `len mod 8` of them, the word loop the rest. -/
theorem hashBytes_congr {t : Tables} {A B : Nat → Byte} {off off' len : Nat} {seed : Word}
    (h : ∀ k, k < len → A (off + k) = B (off' + k)) :
    hashBytes t A off len seed = hashBytes t B off' len seed := by
  have hhead : headLoop A (len % 8) off seed = headLoop B (len % 8) off' seed :=
    headLoop_congr fun k hk => h k (by omega)
  rw [hashBytes, hashBytes, hhead]
  exact wordLoop_congr fun k hk => by
    rw [Nat.add_assoc, Nat.add_assoc]
    exact h _ (by omega)

/-- A step leaves the sequence alone unless the next action is an attach (R51). -/
theorem step_seq_cases {s t : State} (h : step s = .next t) :
    (t.seq = s.seq ∧ t.seqLen = s.seqLen) ∨ ∃ bytes rest, s.host = .attach bytes :: rest := by
  cases stepEffect_of_step h with
  | idle | reset => exact .inl ⟨rfl, rfl⟩
  | command hs hc =>
    obtain ⟨_, _, hseq⟩ := hc.frame
    exact .inl hseq
  | attach hs => exact .inr ⟨_, _, hs⟩

/-- A step leaves the tables alone unless the next action is a reset (R24). -/
theorem step_tables_eq_or_reset {s t : State} (h : step s = .next t) :
    t.tables = s.tables ∨ ∃ p rest, s.host = .reset p :: rest := by
  cases stepEffect_of_step h with
  | idle | attach => exact .inl rfl
  | command hs hc =>
    obtain ⟨_, htables, _⟩ := hc.frame
    exact .inl htables
  | reset hs => exact .inr ⟨_, _, hs⟩

end Sys2Proof.Machine
end

section
/-! SUPPORT. The big-endian packing (R52, R53, R167): the serialization of a concatenation is that of its parts
one after the other, and a packed word is the eight bytes of its serialization. -/

namespace Sys2Proof.Machine

open BitVec (extractLsb'_append_eq_of_le extractLsb'_append_eq_of_add_le)

/-! ### Serialization of a concatenation -/

theorem be16_append (b c : Byte) : be16 (b ++ c) = [b, c] := by
  rw [be16, extract_high, extract_low]

theorem be32_append (c d : Half) : be32 (c ++ d) = be16 c ++ be16 d := by
  simp only [be32, be16, List.cons_append, List.nil_append, List.cons.injEq, and_true]
  refine ⟨?_, ?_, ?_, ?_⟩
  iterate 2 exact extractLsb'_append_eq_of_le (by decide)
  iterate 2 exact extractLsb'_append_eq_of_add_le (by decide)

theorem be64_append (i j : Quad) : be64 (i ++ j) = be32 i ++ be32 j := by
  simp only [be64, be32, List.cons_append, List.nil_append, List.cons.injEq, and_true]
  refine ⟨?_, ?_, ?_, ?_, ?_, ?_, ?_, ?_⟩
  iterate 4 exact extractLsb'_append_eq_of_le (by decide)
  iterate 4 exact extractLsb'_append_eq_of_add_le (by decide)

/-! ### Serialization of a packed word -/

/-- Four chars packed as two integers of two chars each. -/
theorem packChars_eq_packInts (c0 c1 c2 c3 : Half) :
    packChars c0 c1 c2 c3 = packInts (c0 ++ c1) (c2 ++ c3) :=
  BitVec.append_assoc

/-- Eight bytes packed as four chars of two bytes each. -/
theorem packBytes_eq_packChars (b0 b1 b2 b3 b4 b5 b6 b7 : Byte) :
    packBytes b0 b1 b2 b3 b4 b5 b6 b7 = packChars (b0 ++ b1) (b2 ++ b3) (b4 ++ b5) (b6 ++ b7) :=
  calc packBytes b0 b1 b2 b3 b4 b5 b6 b7
    _ = b0 ++ b1 ++ b2 ++ b3 ++ b4 ++ b5 ++ (b6 ++ b7) := BitVec.append_assoc
    _ = b0 ++ b1 ++ b2 ++ b3 ++ (b4 ++ b5) ++ (b6 ++ b7) := congrArg (· ++ (b6 ++ b7)) BitVec.append_assoc
    _ = b0 ++ b1 ++ (b2 ++ b3) ++ (b4 ++ b5) ++ (b6 ++ b7) :=
      congrArg (· ++ (b4 ++ b5) ++ (b6 ++ b7)) BitVec.append_assoc

theorem be64_packInts (i0 i1 : Quad) : be64 (packInts i0 i1) = [i0, i1].flatMap be32 := by
  simp [packInts, be64_append]

theorem be64_packChars (c0 c1 c2 c3 : Half) :
    be64 (packChars c0 c1 c2 c3) = [c0, c1, c2, c3].flatMap be16 := by
  simp [packChars_eq_packInts, be64_packInts, be32_append]

theorem be64_packBytes (b0 b1 b2 b3 b4 b5 b6 b7 : Byte) :
    be64 (packBytes b0 b1 b2 b3 b4 b5 b6 b7) = [b0, b1, b2, b3, b4, b5, b6, b7] := by
  simp [packBytes_eq_packChars, be64_packChars, be16_append]

/-! ### Reading a word back, and the place of an element in it -/

/-- The eight bytes of a word read back as the word: neighbouring byte fields join to one field. -/
theorem memRead8_be64 (l : Word) : memRead8 (fun a => (be64 l).getD a 0#8) 0 = l := by
  change l.extractLsb' 56 8 ++ l.extractLsb' 48 8 ++ l.extractLsb' 40 8 ++ l.extractLsb' 32 8 ++
    l.extractLsb' 24 8 ++ l.extractLsb' 16 8 ++ l.extractLsb' 8 8 ++ l.extractLsb' 0 8 = l
  iterate 7 rw [BitVec.extractLsb'_append_extractLsb'_eq_extractLsb']
  · exact BitVec.extractLsb'_eq_self
  all_goals rfl

theorem extract_byte_eq_be64_getD (l : Word) {n : Nat} (hn : n < 8) :
    l.extractLsb' (56 - 8 * n) 8 = (be64 l).getD n 0#8 := by
  interval_cases n <;> rfl

/-- Byte `n` of a group stands in bits `[63-8n : 56-8n]` (R52). -/
theorem memRead8_extract_byte (A : Nat → Byte) (a n : Nat) (hn : n < 8) :
    (memRead8 A a).extractLsb' (56 - 8 * n) 8 = A (a + n) := by
  rw [extract_byte_eq_be64_getD _ hn, memRead8, be64_packBytes]
  interval_cases n <;> rfl

/-- Char `n` of a group stands in bits `[63-16n : 48-16n]` (R53). -/
theorem packChars_extract_char (c0 c1 c2 c3 : Half) (n : Nat) (h : n < 4) :
    (packChars c0 c1 c2 c3).extractLsb' (48 - 16 * n) 16 = [c0, c1, c2, c3][n] := by
  rw [packChars_eq_packInts, packInts]
  match n with
  | 0 => exact (extractLsb'_append_eq_of_le (by decide)).trans (extract_high c0 c1)
  | 1 => exact (extractLsb'_append_eq_of_le (by decide)).trans (extract_low c0 c1)
  | 2 => exact (extractLsb'_append_eq_of_add_le (by decide)).trans (extract_high c2 c3)
  | 3 => exact (extractLsb'_append_eq_of_add_le (by decide)).trans (extract_low c2 c3)

end Sys2Proof.Machine
end

section
/-! The memories: what a hash reads, what a command leaves unchanged, and how elements are packed. -/

namespace Sys2Proof.Machine

/-- Settles O20: the two loops of the hash read the bytes of the range alone. -/
theorem hashDependsOnNoByteOutsideTheRange : Obligations.HashDependsOnNoByteOutsideTheRange :=
  fun _ _ _ _ _ _ h => hashBytes_congr fun _ hk => h _ (by omega) (by omega)

/-- Settles O29: a HASHB answers and changes nothing, writes `W`, or takes InvalidArgument. -/
theorem hashbChangesTheAccumulatorOrStatusNeverBoth :
    Obligations.HashbChangesTheAccumulatorOrStatusNeverBoth := by
  intro off len s t h
  rcases exec_cases h with ⟨r, rfl⟩ | ⟨_, v, rfl⟩ | ⟨_, _, rfl⟩
  · exact ⟨rfl, rfl, rfl, rfl, fun _ => rfl, ⟨r, rfl⟩, .inl rfl, .inl rfl⟩
  · exact ⟨rfl, rfl, rfl, rfl, fun _ => rfl, ⟨.ack, rfl⟩, .inl rfl, .inl rfl⟩
  · exact ⟨rfl, rfl, rfl, rfl, fun _ => rfl, ⟨.nak .invalidArgument, rfl⟩, .inr rfl, .inr rfl⟩

/-- Settles O31, by the frame of a command word and the two things a step can do to the memories. -/
theorem noCommandWritesMemory : Obligations.NoCommandWritesMemory := by
  refine ⟨fun c s t h => ?_, fun s t h => ⟨fun hne => ?_, fun hne => ?_⟩⟩
  · obtain ⟨_, htables, hseq, hlen⟩ := (cmdEffect_of_runCmd h).frame
    exact ⟨htables, hseq, hlen, fun k n => by rw [htables], fun a => by rw [hseq]⟩
  · refine (step_seq_cases h).resolve_left ?_
    rintro ⟨hseq, hlen⟩
    exact hne.elim (absurd hseq) (absurd hlen)
  · exact (step_tables_eq_or_reset h).resolve_left hne

/-- Settles O56: elements stand where they are packed; the byte view of chars and of integers is the
serialization of the packed word, which reads back as that word. -/
theorem elementsArePackedBigEndian : Obligations.ElementsArePackedBigEndian := by
  refine ⟨memRead8_extract_byte, packChars_extract_char,
    fun i0 i1 => ⟨extract_high i0 i1, extract_low i0 i1⟩,
    fun c0 c1 c2 c3 => ?_, fun i0 i1 => ?_, fun l => (memRead8_be64 l).symm⟩
  · rw [← be64_packChars, memRead8_be64]
  · rw [← be64_packInts, memRead8_be64]

end Sys2Proof.Machine
end

section
/-! SUPPORT. Encoding and decoding (R71, R75, R82): a word is the encoding of a command exactly when it matches
the command's row and carries the command's fields, and the decoder reads exactly the encodings. -/

namespace Sys2Proof

/-! ### A word and the encoding of a command -/

/-- A word is `a` above `x` exactly when it matches `a` under the mask of the high bits and `x` is its low field. -/
theorem append_eq_iff_masked {m n : Nat} (a : BitVec m) (x : BitVec n) (c : BitVec (m + n)) :
    a ++ x = c ↔ c &&& (BitVec.allOnes m ++ 0#n) = a ++ 0#n ∧ x = c.extractLsb' 0 n := by
  obtain ⟨hi, lo, rfl⟩ : ∃ (hi : BitVec m) (lo : BitVec n), c = hi ++ lo :=
    ⟨_, _, BitVec.extractLsb'_append_extractLsb'.symm⟩
  rw [BitVec.and_append, append_inj, append_inj, extract_low, BitVec.and_allOnes, BitVec.and_zero,
    eq_self_iff_true, and_true, @eq_comm _ a hi]

theorem encode_ldw_eq_iff (v : Word) (c : Cmd) : encode (.ldw v) = c ↔
    c &&& 0xFF0000000000000000#72 = 0x010000000000000000#72 ∧ v = c.extractLsb' 0 64 :=
  append_eq_iff_masked 0x01#8 v c

theorem encode_shb_eq_iff (b : Byte) (c : Cmd) : encode (.shb b) = c ↔
    c &&& 0xFFFFFFFFFFFFFFFF00#72 = 0x020000000000000000#72 ∧ b = c.extractLsb' 0 8 := by
  rw [show encode (.shb b) = (0x02#8 ++ 0#56) ++ b from BitVec.append_assoc.symm]
  exact append_eq_iff_masked (0x02#8 ++ 0#56) b c

theorem encode_shh_eq_iff (h : Half) (c : Cmd) : encode (.shh h) = c ↔
    c &&& 0xFFFFFFFFFFFFFF0000#72 = 0x030000000000000000#72 ∧ h = c.extractLsb' 0 16 := by
  rw [show encode (.shh h) = (0x03#8 ++ 0#48) ++ h from BitVec.append_assoc.symm]
  exact append_eq_iff_masked (0x03#8 ++ 0#48) h c

theorem encode_foldw_eq_iff (v : Word) (c : Cmd) : encode (.foldw v) = c ↔
    c &&& 0xFF0000000000000000#72 = 0x040000000000000000#72 ∧ v = c.extractLsb' 0 64 :=
  append_eq_iff_masked 0x04#8 v c

theorem encode_hashb_eq_iff (off len : Quad) (c : Cmd) : encode (.hashb off len) = c ↔
    c &&& 0xFF0000000000000000#72 = 0x080000000000000000#72 ∧
      off = c.extractLsb' 32 32 ∧ len = c.extractLsb' 0 32 := by
  have hoperand : c.extractLsb' 32 32 ++ c.extractLsb' 0 32 = c.extractLsb' 0 64 :=
    BitVec.extractLsb'_append_extractLsb'_eq_extractLsb' rfl
  rw [← append_inj, hoperand]
  exact append_eq_iff_masked 0x08#8 (off ++ len) c

theorem encode_rdw_eq_iff (c : Cmd) : encode .rdw = c ↔
    c &&& 0xFFFFFFFFFFFFFFFFFF#72 = 0x100000000000000000#72 := by
  rw [show c &&& 0xFFFFFFFFFFFFFFFFFF#72 = c from BitVec.and_allOnes, eq_comm]
  rfl

theorem encode_rdstat_eq_iff (c : Cmd) : encode .rdstat = c ↔
    c &&& 0xFFFFFFFFFFFFFFFFFF#72 = 0x110000000000000000#72 := by
  rw [show c &&& 0xFFFFFFFFFFFFFFFFFF#72 = c from BitVec.and_allOnes, eq_comm]
  rfl

/-- Two rows that differ under both masks match no common word. -/
theorem not_masked_of_ne {n : Nat} {a a' m m' c : BitVec n} (hne : a &&& m' ≠ a' &&& m) :
    ¬ (c &&& m = a ∧ c &&& m' = a') := by
  rintro ⟨rfl, rfl⟩
  exact hne (by ac_rfl)

/-! ### The decoder accepts encodings only -/

/-- The row whose test a word passed gives back the word, its other operand bits being 0. -/
theorem encode_of_decode {c : Cmd} {i : Instr} (h : decode c = .ok i) : encode i = c := by
  unfold decode at h
  split_ifs at h with hldw hshb hshh hfoldw hhashb hrdw hrdstat <;> cases h
  · exact (encode_ldw_eq_iff _ c).mpr ⟨hldw, rfl⟩
  · exact (encode_shb_eq_iff _ c).mpr ⟨hshb, rfl⟩
  · exact (encode_shh_eq_iff _ c).mpr ⟨hshh, rfl⟩
  · exact (encode_foldw_eq_iff _ c).mpr ⟨hfoldw, rfl⟩
  · exact (encode_hashb_eq_iff _ _ c).mpr ⟨hhashb, rfl, rfl⟩
  · exact (encode_rdw_eq_iff c).mpr hrdw
  · exact (encode_rdstat_eq_iff c).mpr hrdstat

/-! ### The operand fields of an encoding, and the round trip (R71) -/

@[simp] theorem immOf_encode_ldw (v : Word) : immOf (encode (.ldw v)) = v := immOf_append _ _

@[simp] theorem byteOf_encode_shb (b : Byte) : byteOf (encode (.shb b)) = b :=
  ((encode_shb_eq_iff b _).mp rfl).2.symm

@[simp] theorem halfOf_encode_shh (h : Half) : halfOf (encode (.shh h)) = h :=
  ((encode_shh_eq_iff h _).mp rfl).2.symm

@[simp] theorem immOf_encode_foldw (v : Word) : immOf (encode (.foldw v)) = v := immOf_append _ _

@[simp] theorem offOf_encode_hashb (off len : Quad) : offOf (encode (.hashb off len)) = off :=
  ((encode_hashb_eq_iff off len _).mp rfl).2.1.symm

@[simp] theorem lenOf_encode_hashb (off len : Quad) : lenOf (encode (.hashb off len)) = len :=
  ((encode_hashb_eq_iff off len _).mp rfl).2.2.symm

@[simp] theorem immOf_encode_rdw : immOf (encode .rdw) = 0#64 := immOf_append _ _

@[simp] theorem immOf_encode_rdstat : immOf (encode .rdstat) = 0#64 := immOf_append _ _

/-- The bits under a mask of the high bits are 0 exactly when the high field is. -/
theorem and_highMask_eq_zero_iff {m n : Nat} (x : BitVec (m + n)) :
    x &&& (BitVec.allOnes m ++ 0#n) = 0#m ++ 0#n ↔ x.extractLsb' n m = 0#m := by
  obtain ⟨hi, lo, rfl⟩ : ∃ (hi : BitVec m) (lo : BitVec n), x = hi ++ lo :=
    ⟨_, _, BitVec.extractLsb'_append_extractLsb'.symm⟩
  rw [BitVec.and_append, append_inj, extract_high, BitVec.and_allOnes, BitVec.and_zero,
    eq_self_iff_true, and_true]

/-- The must-be-zero bits of format B are `cmd[63:8]` (R71). -/
theorem shb_reserved_iff (c : Cmd) :
    immOf c &&& 0xFFFFFFFFFFFFFF00#64 = 0#64 ↔ c.extractLsb' 8 56 = 0#56 :=
  (and_highMask_eq_zero_iff (m := 56) (n := 8) (immOf c)).trans
    (by rw [immOf, BitVec.extractLsb'_extractLsb'_of_le (by decide)])

/-- The must-be-zero bits of format H are `cmd[63:16]` (R71). -/
theorem shh_reserved_iff (c : Cmd) :
    immOf c &&& 0xFFFFFFFFFFFF0000#64 = 0#64 ↔ c.extractLsb' 16 48 = 0#48 :=
  (and_highMask_eq_zero_iff (m := 48) (n := 16) (immOf c)).trans
    (by rw [immOf, BitVec.extractLsb'_extractLsb'_of_le (by decide)])

/-- The opcode selects the row, the must-be-zero bits pass its test, and the fields read back the operands. -/
theorem decode_encode (i : Instr) : decode (encode i) = .ok i := by
  rw [decode_eq, opOf_encode]
  cases i with
  | ldw v | foldw v | hashb off len | rdw | rdstat => simp [opcodeOf]
  | shb b =>
    obtain ⟨hrow, _⟩ := (encode_shb_eq_iff b _).mp rfl
    obtain ⟨_, hreserved⟩ := (spells_iff _ 0x02#8 0xFFFFFFFFFFFFFF00#64).mp hrow
    simp [opcodeOf, hreserved]
  | shh h =>
    obtain ⟨hrow, _⟩ := (encode_shh_eq_iff h _).mp rfl
    obtain ⟨_, hreserved⟩ := (spells_iff _ 0x03#8 0xFFFFFFFFFFFF0000#64).mp hrow
    simp [opcodeOf, hreserved]

/-- The decoder accepts exactly the encodings, each as its instruction (R75, R82). -/
theorem decode_eq_ok_iff {c : Cmd} {i : Instr} : decode c = .ok i ↔ encode i = c :=
  ⟨encode_of_decode, fun h => h ▸ decode_encode i⟩

/-- Every word with opcode 0x08 is a HASHB (R140). -/
theorem decode_of_opOf_hashb {c : Cmd} (h : opOf c = 0x08#8) : decode c = .ok (.hashb (offOf c) (lenOf c)) := by
  simp [decode_eq, h]

/-! ### The words that spell no command (R82) -/

/-- A row with must-be-zero bits refuses a word exactly when its test of them fails. -/
theorem ite_ok_error_ne_ok_iff {p : Prop} [Decidable p] (j : Instr) (e : IllegalWord) :
    (∀ i, ¬ (if p then .ok j else .error e : Except IllegalWord Instr) = .ok i) ↔ ¬ p := by
  by_cases hp : p <;> simp [hp]

/-- The cases (a) to (d) of R82: by the opcode, and in the rows with must-be-zero bits by those bits. -/
theorem decode_ne_ok_iff (c : Cmd) : (∀ i, decode c ≠ .ok i) ↔
    opOf c ∉ assignedOpcodes ∨ (opOf c = 0x02#8 ∧ c.extractLsb' 8 56 ≠ 0#56) ∨
      (opOf c = 0x03#8 ∧ c.extractLsb' 16 48 ≠ 0#48) ∨
      ((opOf c = 0x10#8 ∨ opOf c = 0x11#8) ∧ immOf c ≠ 0#64) := by
  simp only [decode_eq, shb_reserved_iff, shh_reserved_iff]
  by_cases hop : opOf c ∈ assignedOpcodes
  · have hcases : opOf c = 0x01#8 ∨ opOf c = 0x02#8 ∨ opOf c = 0x03#8 ∨ opOf c = 0x04#8 ∨ opOf c = 0x08#8 ∨
        opOf c = 0x10#8 ∨ opOf c = 0x11#8 := by simpa [assignedOpcodes] using hop
    rcases hcases with h | h | h | h | h | h | h <;>
      simp [h, assignedOpcodes, ite_ok_error_ne_ok_iff]
  · simp_all [assignedOpcodes]

end Sys2Proof
end

section
/-! SUPPORT. The one response of each command (R76, R78), said once. -/

namespace Sys2Proof.Machine

/-- In the fault state every command but RDSTAT is answered NAK and changes nothing (R205). -/
theorem exec_of_err {i : Instr} {s : State} (he : s.status.err = true) (hi : i ≠ .rdstat) :
    exec i s = .next (respond s (.nak s.status.cause)) := by
  cases i with
  | rdstat => exact absurd rfl hi
  | ldw | shb | shh | foldw | hashb | rdw =>
    simp only [exec, execLdw, execShb, execShh, execFoldw, execHashb, execRdw, unlessFaulted_of_err he]

/-- In the fault state every word but a well-formed RDSTAT is answered NAK and changes nothing (R205). -/
theorem runCmd_of_err {c : Cmd} {s : State} (he : s.status.err = true) (hc : decode c ≠ .ok .rdstat) :
    runCmd c s = .next (respond s (.nak s.status.cause)) := by
  cases hd : decode c with
  | ok i =>
    rw [runCmd_of_ok hd]
    exact exec_of_err he fun hi => hc (hi ▸ hd)
  | error e => rw [runCmd_of_error hd]; exact unlessFaulted_of_err he

/-- Outside the fault state a word that spells no command raises IllegalCommand with its opcode byte (R82). -/
theorem runCmd_of_illegal {c : Cmd} {s : State} (he : s.status.err = false) (hc : ∀ i, decode c ≠ .ok i) :
    runCmd c s = .next (raise .illegalCommand (opOf c) s) := by
  cases hd : decode c with
  | ok i => exact absurd hd (hc i)
  | error e => rw [runCmd_of_error hd]; exact unlessFaulted_of_ok he

/-! ### The commands outside the fault state (R122 to R125, R141, R142, R180) -/

section
variable {s : State} (he : s.status.err = false)
include he

theorem exec_ldw_of_ok (v : Word) : exec (.ldw v) s = .next (respond (setW s v) .ack) :=
  unlessFaulted_of_ok (run := fun s => ackW s v) he

theorem exec_shb_of_ok (b : Byte) : exec (.shb b) s = .next (respond (setW s (headByte s.w b)) .ack) :=
  unlessFaulted_of_ok (run := fun s => ackW s (headByte s.w b)) he

theorem exec_shh_of_ok (h : Half) : exec (.shh h) s = .next (respond (setW s (headHalf s.w h)) .ack) :=
  unlessFaulted_of_ok (run := fun s => ackW s (headHalf s.w h)) he

theorem exec_foldw_of_ok (v : Word) :
    exec (.foldw v) s = .next (respond (setW s (wordStep s.tables s.w v)) .ack) :=
  unlessFaulted_of_ok (run := fun s => ackW s (wordStep s.tables s.w v)) he

theorem exec_rdw_of_ok : exec .rdw s = .next (respond s (.data s.w)) :=
  unlessFaulted_of_ok (run := fun s => .next (respond s (.data s.w))) he

/-- A HASHB whose range lies in the sequence writes the hash (R141). -/
theorem exec_hashb_of_le {off len : Quad} (h : off.toNat + len.toNat ≤ s.seqLen) :
    exec (.hashb off len) s =
      .next (respond (setW s (hashBytes s.tables (memByte s.seq) off.toNat len.toNat s.w)) .ack) := by
  simp [exec, execHashb, unlessFaulted_of_ok he, inBounds, h, ackW]

/-- A HASHB whose range leaves the sequence raises InvalidArgument (R142). -/
theorem exec_hashb_of_gt {off len : Quad} (h : s.seqLen < off.toNat + len.toNat) :
    exec (.hashb off len) s = .next (raise .invalidArgument 0x08#8 s) := by
  simp [exec, execHashb, unlessFaulted_of_ok he, inBounds, Nat.not_le.mpr h]

end

/-! ### Responses -/

/-- What a command is answered outside the fault state (R78). -/
def answerOf (s : State) : Instr → Resp
  | .ldw _ | .shb _ | .shh _ | .foldw _ => .ack
  | .hashb off len => if off.toNat + len.toNat ≤ s.seqLen then .ack else .nak .invalidArgument
  | .rdw => .data s.w
  | .rdstat => .data (statusWord s.status)

/-- What a word is answered: RDSTAT in every state, else NAK in the fault state, else by the command (R76, R78). -/
def responseTo (s : State) (c : Cmd) : Resp :=
  if decode c = .ok .rdstat then .data (statusWord s.status)
  else if s.status.err then .nak s.status.cause
  else match decode c with
    | .ok i => answerOf s i
    | .error _ => .nak .illegalCommand

/-- Outside the fault state a word that decodes is answered by its command. -/
theorem responseTo_of_ok {s : State} {c : Cmd} {i : Instr} (he : s.status.err = false)
    (hd : decode c = .ok i) : responseTo s c = answerOf s i := by
  by_cases hi : i = .rdstat
  · simp [responseTo, hd, hi, answerOf]
  · simp [responseTo, hd, hi, he]

/-- Outside the fault state a word that spells no command is answered NAK of IllegalCommand (R82). -/
theorem responseTo_of_illegal {s : State} {c : Cmd} (he : s.status.err = false)
    (hc : ∀ i, decode c ≠ .ok i) : responseTo s c = .nak .illegalCommand := by
  cases hd : decode c with
  | ok i => exact absurd hd (hc i)
  | error e => simp [responseTo, hd, he]

/-- Outside the fault state a command issues its answer, and nothing more (R78). -/
theorem exec_resps {s : State} (he : s.status.err = false) (i : Instr) :
    ∃ t, exec i s = .next t ∧ t.resps = s.resps ++ [answerOf s i] := by
  cases i with
  | ldw v => exact ⟨_, exec_ldw_of_ok he v, rfl⟩
  | shb b => exact ⟨_, exec_shb_of_ok he b, rfl⟩
  | shh h => exact ⟨_, exec_shh_of_ok he h, rfl⟩
  | foldw v => exact ⟨_, exec_foldw_of_ok he v, rfl⟩
  | rdw => exact ⟨_, exec_rdw_of_ok he, rfl⟩
  | rdstat => exact ⟨_, rfl, rfl⟩
  | hashb off len =>
    rcases Nat.lt_or_ge s.seqLen (off.toNat + len.toNat) with hgt | hle
    · exact ⟨_, exec_hashb_of_gt he hgt, by simp [answerOf, hgt]⟩
    · exact ⟨_, exec_hashb_of_le he hle, by simp [answerOf, hle]⟩

/-- Every command word issues its one response (R78). -/
theorem runCmd_resps (c : Cmd) (s : State) :
    ∃ t, runCmd c s = .next t ∧ t.resps = s.resps ++ [responseTo s c] := by
  by_cases hc : decode c = .ok .rdstat
  · exact ⟨_, runCmd_of_ok hc s, by simp [responseTo, hc]⟩
  · cases he : s.status.err with
    | true => exact ⟨_, runCmd_of_err he hc, by simp [responseTo, hc, he]⟩
    | false =>
      by_cases hlegal : ∃ i, decode c = .ok i
      · obtain ⟨i, hd⟩ := hlegal
        rw [runCmd_of_ok hd, responseTo_of_ok he hd]
        exact exec_resps he i
      · rw [responseTo_of_illegal he (not_exists.mp hlegal)]
        exact ⟨_, runCmd_of_illegal he (not_exists.mp hlegal), rfl⟩

/-- No response has kind `0b11` (R78). -/
theorem respKind_ne_three (r : Resp) : respKind r ≠ 0b11#2 := by
  cases r <;> simp [respKind]

end Sys2Proof.Machine
end

section
/-! Encoding and dispatch (R71, R75, R76, R78, R82 to R84). -/

namespace Sys2Proof.Machine

/-- Settles O1, by the fields of each encoding. -/
theorem decodeOfEncodeIsTheInstruction : Obligations.DecodeOfEncodeIsTheInstruction := decode_encode

/-- Settles O2, by the row whose test the word passed. -/
theorem acceptedWordIsTheEncodingOfItsInstruction : Obligations.AcceptedWordIsTheEncodingOfItsInstruction :=
  fun _ _ => encode_of_decode

/-- Settles O3: the decoder accepts exactly the encodings, and a word is the encoding of a command exactly
when it matches the command's row; any two rows differ under both their masks. -/
theorem wordSpellsACommandExactlyWhenItsRowMatches :
    Obligations.WordSpellsACommandExactlyWhenItsRowMatches := by
  refine ⟨fun c v => decode_eq_ok_iff.trans (encode_ldw_eq_iff v c),
    fun c b => decode_eq_ok_iff.trans (encode_shb_eq_iff b c),
    fun c h => decode_eq_ok_iff.trans (encode_shh_eq_iff h c),
    fun c v => decode_eq_ok_iff.trans (encode_foldw_eq_iff v c),
    fun c off len => decode_eq_ok_iff.trans (encode_hashb_eq_iff off len c),
    fun c => decode_eq_ok_iff.trans (encode_rdw_eq_iff c),
    fun c => decode_eq_ok_iff.trans (encode_rdstat_eq_iff c), ?_⟩
  have hmasked : opcodeRows.Pairwise fun r r' => r.1 &&& r'.2 ≠ r'.1 &&& r.2 := by decide
  exact hmasked.imp fun hne _ => not_masked_of_ne hne

/-- Settles O4: the words without a row by opcode and must-be-zero bits, their fault by the rule for such a word,
a HASHB's by its bounds test. -/
theorem illegalWordsRaiseIllegalCommand : Obligations.IllegalWordsRaiseIllegalCommand := by
  refine ⟨decode_ne_ok_iff, fun c s hc he => runCmd_of_illegal he hc, by decide +kernel, fun c hop => ?_,
    fun c s hop he hrange => ?_⟩
  · by_contra hnone
    have hcases := (decode_ne_ok_iff c).mp (not_exists.mp hnone)
    rcases hop with h | h | h <;> simp [h, assignedOpcodes] at hcases
  · exact (runCmd_of_ok (decode_of_opOf_hashb hop) s).trans (exec_hashb_of_gt he hrange)

/-- Settles O7, by the four cases of R76: a well-formed RDSTAT, the fault state, a row, no row. -/
theorem stepFollowsTheDecodeOrder : Obligations.StepFollowsTheDecodeOrder := by
  intro s c rest hs
  have hstep : step s = runCmd c (setHost s rest) := step_of_cons hs
  have hrdstat := decode_eq_ok_iff.trans (encode_rdstat_eq_iff c)
  rw [hstep]
  split_ifs with hc he
  · exact runCmd_of_ok (hrdstat.mpr hc) _
  · exact runCmd_of_err he (mt hrdstat.mp hc)
  · cases hd : decode c with
    | ok i => exact runCmd_of_ok hd _
    | error e => exact (runCmd_of_error hd _).trans (unlessFaulted_of_ok (Bool.eq_false_of_not_eq_true he))

/-- Settles O8: the response to a word, read off in each case, and the bits of each kind. -/
theorem everyCommandGetsItsOneResponse : Obligations.EveryCommandGetsItsOneResponse := by
  refine ⟨fun s c rest hs => ?_, by decide, fun _ => rfl, fun _ => rfl, fun r => ?_⟩
  · obtain ⟨t, ht, hresps⟩ := runCmd_resps c (setHost s rest)
    refine ⟨t, _, (step_of_cons hs).trans ht, hresps, fun hd => by simp [responseTo, hd],
      fun hd he => by simp [responseTo, hd, he], fun he => ?_⟩
    exact ⟨responseTo_of_ok he, fun _ => responseTo_of_ok he, fun _ => responseTo_of_ok he,
      fun _ => responseTo_of_ok he, fun _ => responseTo_of_ok he, fun _ _ => responseTo_of_ok he,
      responseTo_of_illegal he⟩
  · rw [respWord, extract_high]
    exact respKind_ne_three r

/-- Settles O5, by running the decoder. -/
theorem wordsWrittenFromTheFormatsDecode : Obligations.WordsWrittenFromTheFormatsDecode := by
  unfold Obligations.WordsWrittenFromTheFormatsDecode
  decide

/-- Settles O57: each encoding is the opcode byte above the packed operand; a 32-bit operand is extended by zeros. -/
theorem pseudoInstructionsAreOneCommandEach : Obligations.PseudoInstructionsAreOneCommandEach := by
  refine ⟨rfl, fun i => ?_, fun _ _ _ _ _ _ _ _ => rfl, fun _ _ _ _ => rfl, fun _ _ => rfl, fun _ => rfl⟩
  have hzext : zextQuad i = 0#32 ++ i := BitVec.setWidth_eq_append (by decide)
  rw [ldz32, encode, hzext]

/-- Settles O60, by the test whether the number fits the field. -/
theorem assemblerRefusesAnOperandThatDoesNotFit : Obligations.AssemblerRefusesAnOperandThatDoesNotFit := by
  intro width n cs hn
  refine ⟨fun hwide => ?_, fun hfits => ⟨BitVec.ofNat width n, ?_, Nat.mod_eq_of_lt hfits⟩⟩
  · simp [operand, hn, fitsField, Nat.not_lt.mpr hwide]
  · simp [operand, hn, fitsField, hfits]

end Sys2Proof.Machine
end

section
/-! SUPPORT. The constructed tables (R100, R101, R103): the source's accumulation, the entries as a linear
function of their index, and the fold as the XOR of the mods that the bits of its word select. -/

namespace Sys2Proof.Machine

/-! ### Listed vectors and the mods sequence -/

/-- An entry of a listed vector, by a plain index. -/
@[simp] theorem tabulate_getElem {α : Type} (n : Nat) (f : Nat → α) (i : Nat) (hi : i < n) :
    (tabulate n f)[i] = f i :=
  tabulate_get n f ⟨i, hi⟩

/-- An indexed map of a listed vector lists the mapped values. -/
theorem tabulate_mapIdx {α β : Type} (n : Nat) (f : Nat → α) (g : Nat → α → β) :
    (tabulate n f).mapIdx g = tabulate n fun i => g i (f i) := by
  ext i hi
  simp

/-- The ModTable holds `mods[0]` to `mods[63]` (R100). -/
theorem mods_getElem? (poly : Word) {i : Nat} (hi : i < 64) : (mods poly)[i]? = some (modsAt poly i) := by
  simp [mods, hi]

/-! ### XOR of the values that bits select -/

/-- A value selected by the XOR of two bits. -/
theorem ite_xor_zero (a b : Bool) (v : Word) :
    (if (a ^^ b) = true then v else 0#64) = (if a then v else 0#64) ^^^ (if b then v else 0#64) := by
  cases a <;> cases b <;> simp

/-- Indexed XOR of selected values, as one pass over the indices selected. -/
theorem xorBelow_ite_eq_foldl_filter (p : Nat → Bool) (f : Nat → Word) (n : Nat) :
    xorBelow n (fun j => if p j then f j else 0#64) =
      ((List.range n).filter p).foldl (fun e j => e ^^^ f j) 0#64 := by
  induction n with
  | zero => rfl
  | succ n ih =>
    rw [xorBelow, ih, List.range_succ, List.filter_append, List.foldl_append]
    cases hn : p n <;> simp [hn]

/-- A value XORed in an even number of times cancels. -/
theorem xorBelow_const_even (n : Nat) (v : Word) : xorBelow (n + n) (fun _ => v) = 0#64 := by
  rw [xorBelow_add, BitVec.xor_self]

/-- Indexed XOR over `m` groups of `n` indices. -/
theorem xorBelow_mul (n m : Nat) (f : Nat → Word) :
    xorBelow (n * m) f = xorBelow m fun k => xorBelow n fun j => f (j + n * k) := by
  induction m with
  | zero => rfl
  | succ m ih =>
    rw [Nat.mul_succ, xorBelow_add, ih, xorBelow]
    simp only [Nat.add_comm]

/-- The low `n` bits of a word, put together one by one. -/
theorem getLsbD_xorBelow_bits (w : Word) (n : Nat) {i : Nat} (hi : i < 64) :
    (xorBelow n fun b => if w.getLsbD b then 1#64 <<< b else 0#64).getLsbD i =
      (decide (i < n) && w.getLsbD i) := by
  induction n with
  | zero => simp [xorBelow]
  | succ n ih =>
    have hbit : (if w.getLsbD n then 1#64 <<< n else 0#64).getLsbD i = (decide (i = n) && w.getLsbD i) := by
      rw [← BitVec.twoPow_eq]
      by_cases h : i = n
      · subst h
        cases hw : w.getLsbD i <;> simp [hi]
      · cases hw : w.getLsbD n <;> simp [h, Ne.symm h]
    rw [xorBelow, BitVec.getLsbD_xor, ih, hbit]
    rcases Nat.lt_trichotomy i n with h | h | h
    · simp [h, h.ne, Nat.lt_succ_of_lt h]
    · simp [h]
    · simp [h.ne', Nat.not_lt.mpr h.le, Nat.not_lt.mpr (Nat.succ_le_of_lt h)]

/-- A word is the XOR of its bits. -/
theorem xorBelow_bits (w : Word) : (xorBelow 64 fun b => if w.getLsbD b then 1#64 <<< b else 0#64) = w :=
  BitVec.eq_of_getLsbD_eq fun i hi => by rw [getLsbD_xorBelow_bits w 64 hi, decide_eq_true hi, Bool.true_and]

/-! ### Table entries -/

/-- An entry is linear in its index (R103). -/
theorem tableEntry_xor (poly : Word) (k a b : Nat) :
    tableEntry poly k (a ^^^ b) = tableEntry poly k a ^^^ tableEntry poly k b := by
  simp only [tableEntry, Nat.testBit_xor, ite_xor_zero, xorBelow_xor]

/-- The empty index selects no mods entry (R101). -/
@[simp] theorem tableEntry_zero (poly : Word) (k : Nat) : tableEntry poly k 0 = 0#64 :=
  xorBelow_zero fun _ _ => by simp

/-- A single-bit index selects one mods entry (R101). -/
theorem tableEntry_two_pow (poly : Word) (k : Nat) {j : Nat} (hj : j < 8) :
    tableEntry poly k (2 ^ j) = modsAt poly (j + 8 * k) := by
  rw [← xorBelow_single hj (modsAt poly (j + 8 * k)), tableEntry]
  refine xorBelow_congr fun b _ => ?_
  by_cases h : b = j
  · subst h
    simp
  · simp [h, Nat.testBit_two_pow_of_ne (Ne.symm h)]

/-- A table is linear in its index (R103). -/
theorem tableRead_xor (poly : Word) (k : Fin 8) (a b : Byte) : tableRead (buildTables poly) k (a ^^^ b) =
    tableRead (buildTables poly) k a ^^^ tableRead (buildTables poly) k b := by
  simp only [tableRead_buildTables, BitVec.toNat_xor, tableEntry_xor]

/-- The eight entries that determine a table (R103) are mods entries. -/
theorem tableRead_one_shiftLeft (poly : Word) (k : Fin 8) {j : Nat} (hj : j < 8) :
    tableRead (buildTables poly) k (1#8 <<< j) = modsAt poly (j + 8 * k.val) := by
  rw [← BitVec.twoPow_eq, tableRead_buildTables, BitVec.toNat_twoPow_of_lt hj, tableEntry_two_pow poly k hj]

/-- An index in the upper half of a table is one in the lower half with bit 7 set. -/
theorem ofNat_upper_half {n : Nat} (hn : n < 128) : BitVec.ofNat 8 (128 + n) = 128#8 ^^^ BitVec.ofNat 8 n := by
  decide +revert

/-! ### The source's accumulation (R101) -/

/-- Entry `T[k][i]` after the passes for the bit positions below `n`. -/
def entryBelow (poly : Word) (n k i : Nat) : Word :=
  xorBelow n fun j => if i.testBit j then modsAt poly (j + 8 * k) else 0#64

/-- The passes for all eight bit positions reach the entry of R101. -/
theorem entryBelow_eight (poly : Word) (k i : Nat) : entryBelow poly 8 k i = tableEntry poly k i := rfl

/-- The pass for bit position `n`, on one entry. -/
theorem accumulateBit_entryBelow (poly : Word) (n k i : Nat) :
    accumulateBit poly k i n (entryBelow poly n k i) = entryBelow poly (n + 1) k i := by
  cases h : i.testBit n <;> simp [accumulateBit, entryBelow, xorBelow, h]

/-- The tables after the passes for the bit positions below `n`. -/
theorem foldl_accumulatePass (poly : Word) (n : Nat) :
    (List.range n).foldl (accumulatePass poly) (tabulate 8 fun _ => tabulate 256 fun _ => 0#64) =
      tabulate 8 fun k => tabulate 256 fun i => entryBelow poly n k i := by
  induction n with
  | zero => rfl
  | succ n ih =>
    simp only [List.range_succ, List.foldl_append, ih, List.foldl_cons, List.foldl_nil, accumulatePass,
      tabulate_mapIdx, accumulateBit_entryBelow]

/-- The accumulation reaches the tables of the closed form. -/
theorem accumulateTables_eq_buildTables (poly : Word) : accumulateTables poly = buildTables poly := by
  rw [accumulateTables, foldl_accumulatePass]
  simp only [entryBelow_eight, buildTables]

/-! ### The fold over built tables (R121, R127) -/

/-- The entry a lane selects, by the bits of the word. -/
theorem tableEntry_lane (poly w : Word) (k : Nat) : tableEntry poly k (lane w k).toNat =
    xorBelow 8 fun j => if w.getLsbD (j + 8 * k) then modsAt poly (j + 8 * k) else 0#64 := by
  refine xorBelow_congr fun j hj => ?_
  rw [BitVec.testBit_toNat, lane, BitVec.getLsbD_extractLsb', Nat.add_comm]
  simp [hj]

/-- Bit `b` of the word selects `mods[b]` (R127). -/
theorem fold_buildTables (poly w : Word) : fold (buildTables poly) w =
    xorBelow 64 fun b => if w.getLsbD b then modsAt poly b else 0#64 := by
  rw [xorBelow_mul 8 8]
  simp only [← tableEntry_lane]
  simp [fold, xorBelow]

/-! ### Two degenerate polynomials -/

/-- Over POLY = 1 no mods entry wraps. -/
theorem modsAt_one {i : Nat} (hi : i < 64) : modsAt 1#64 i = 1#64 <<< i := by
  induction i with
  | zero => rfl
  | succ i ih =>
    have htop : (1#64 <<< i).getLsbD 63 = false := by
      simp [← BitVec.twoPow_eq, show 63 ≠ i by omega]
    rw [modsAt, ih (by omega), modsNext, htop, BitVec.shiftLeft_add]
    rfl

/-- Over POLY = 1 the fold is the identity. -/
theorem fold_buildTables_one (w : Word) : fold (buildTables 1#64) w = w := by
  conv_rhs => rw [← xorBelow_bits w]
  rw [fold_buildTables]
  exact xorBelow_congr fun b hb => by rw [modsAt_one hb]

/-- A polynomial that the recurrence keeps is every mods entry. -/
theorem modsAt_of_modsNext_eq {poly : Word} (h : modsNext poly poly = poly) (i : Nat) : modsAt poly i = poly := by
  induction i with
  | zero => rfl
  | succ i ih => rw [modsAt, ih, h]

end Sys2Proof.Machine
end

section
/-! SUPPORT. The polynomial reading (R106): its coefficients and degree, the generator, and a word as the
remainder of any polynomial congruent to it. -/

namespace Sys2Proof.Machine
open Polynomial

/-! ### Words as polynomials -/

theorem coeff_polyOf {n : Nat} (v : BitVec n) (b : Nat) :
    (polyOf v).coeff b = if v.getLsbD b then 1 else 0 := by
  have hterm (c : Nat) : (if v.getLsbD c then (X : (ZMod 2)[X]) ^ c else 0).coeff b =
      if b = c then (if v.getLsbD c then 1 else 0) else 0 := by
    cases v.getLsbD c <;> simp [coeff_X_pow]
  simp only [polyOf, finsetSum_coeff, hterm, Finset.sum_ite_eq, Finset.mem_range]
  by_cases hb : b < n
  · rw [if_pos hb]
  · simp [hb, BitVec.getLsbD_of_ge v b (Nat.le_of_not_lt hb)]

/-- XOR is addition over GF(2) (R106). -/
theorem polyOf_xor {n : Nat} (a b : BitVec n) : polyOf (a ^^^ b) = polyOf a + polyOf b := by
  ext i
  rw [coeff_add, coeff_polyOf, coeff_polyOf, coeff_polyOf, BitVec.getLsbD_xor]
  cases a.getLsbD i <;> cases b.getLsbD i <;> decide

theorem degree_polyOf_lt {n : Nat} (v : BitVec n) : (polyOf v).degree < n := by
  rw [degree_lt_iff_coeff_zero]
  intro i hi
  simp [coeff_polyOf, BitVec.getLsbD_of_ge v i hi]

/-! ### The generator -/

theorem generator_monic (poly : Word) : (generator poly).Monic := monic_X_pow_add (degree_polyOf_lt poly)

theorem degree_generator (poly : Word) : (generator poly).degree = (64 : Nat) := by
  have hlt : (polyOf poly).degree < (X ^ 64 : (ZMod 2)[X]).degree := by
    rw [degree_X_pow]
    exact degree_polyOf_lt poly
  rw [generator, degree_add_eq_left_of_degree_lt hlt, degree_X_pow]

/-- A word is the remainder of every polynomial congruent to it modulo the generator. -/
theorem polyOf_eq_modByMonic_of_dvd {poly v : Word} {p : (ZMod 2)[X]} (h : generator poly ∣ p - polyOf v) :
    polyOf v = p %ₘ generator poly := by
  have hdeg : (polyOf v).degree < (generator poly).degree := by
    rw [degree_generator]
    exact degree_polyOf_lt v
  rw [modByMonic_eq_of_dvd_sub (generator_monic poly) h,
    (modByMonic_eq_self_iff (generator_monic poly)).mpr hdeg]

/-! ### Multiplication by `x` (R106) -/

/-- A shift inside 64 bits is multiplication by `x` without the `x^64` term. -/
theorem X_mul_polyOf (m : Word) : X * polyOf m = polyOf (m <<< 1) + if m.getLsbD 63 then X ^ 64 else 0 := by
  ext b
  rw [coeff_add, coeff_polyOf]
  cases b with
  | zero => cases m.getLsbD 63 <;> simp [coeff_X_pow]
  | succ b =>
    have hshift : (m <<< 1).getLsbD (b + 1) = (decide (b < 63) && m.getLsbD b) := by
      simp [BitVec.getLsbD_shiftLeft, ← Nat.lt_sub_iff_add_lt]
    rw [coeff_X_mul, coeff_polyOf, hshift]
    rcases Nat.lt_trichotomy b 63 with h | h | h
    · cases m.getLsbD 63 <;> simp [h, h.ne, coeff_X_pow]
    · subst h
      cases m.getLsbD 63 <;> simp [coeff_X_pow]
    · rw [BitVec.getLsbD_of_ge m b h]
      cases m.getLsbD 63 <;> simp [h.ne', coeff_X_pow]

/-- One step of the mods recurrence replaces the `x^64` term by `POLY(x)`. -/
theorem X_mul_polyOf_sub_modsNext (poly m : Word) :
    X * polyOf m - polyOf (modsNext poly m) = if m.getLsbD 63 then generator poly else 0 := by
  rw [X_mul_polyOf, modsNext]
  split_ifs
  · rw [polyOf_xor, add_sub_add_left_eq_sub, CharTwo.sub_eq_add, generator]
  · rw [add_zero, sub_self]

theorem generator_dvd_X_pow_sub_modsAt (poly : Word) (i : Nat) :
    generator poly ∣ X ^ (64 + i) - polyOf (modsAt poly i) := by
  induction i with
  | zero =>
    rw [modsAt, CharTwo.sub_eq_add]
    exact dvd_rfl
  | succ i ih =>
    have hstep : generator poly ∣ X * polyOf (modsAt poly i) - polyOf (modsNext poly (modsAt poly i)) := by
      rw [X_mul_polyOf_sub_modsNext]
      split_ifs
      · exact dvd_rfl
      · exact dvd_zero _
    rw [modsAt, ← Nat.add_assoc, pow_succ', ← sub_add_sub_cancel _ (X * polyOf (modsAt poly i)), ← mul_sub]
    exact dvd_add (dvd_mul_of_dvd_right ih X) hstep

end Sys2Proof.Machine
end

section
/-! Table construction (R100, R101, R103, R106) and the folds of section 8 of 95_test_vectors.md. -/

namespace Sys2Proof.Machine

/-- Settles O51: each mods entry is congruent to its power of `x`, by the recurrence. -/
theorem modsArePowersOfXModuloTheGenerator : Obligations.ModsArePowersOfXModuloTheGenerator :=
  fun poly i _ => polyOf_eq_modByMonic_of_dvd (generator_dvd_X_pow_sub_modsAt poly i)

/-- Settles O47, by reading the ModTable at `i` and at `i + 1`. -/
theorem modsFollowTheRecurrence : Obligations.ModsFollowTheRecurrence := by
  refine fun poly => ⟨by simp [mods], mods_getElem? poly (by decide), fun i m hi hm => ?_⟩
  rw [mods_getElem? poly (by omega), Option.some.injEq] at hm
  subst hm
  exact mods_getElem? poly (by omega)

/-- Settles O48: the closed form entry by entry, the accumulation pass by pass. -/
theorem tableEntriesAreXorsOfModsAndAccumulationReachesThem :
    Obligations.TableEntriesAreXorsOfModsAndAccumulationReachesThem := by
  refine ⟨fun poly k n => ?_, fun poly k => ?_, fun poly k _ => tableRead_one_shiftLeft poly k,
    accumulateTables_eq_buildTables⟩
  · rw [tableRead_buildTables]
    exact xorBelow_ite_eq_foldl_filter n.getLsbD (fun j => modsAt poly (j + 8 * k.val)) 8
  · rw [tableRead_buildTables]
    exact tableEntry_zero poly k.val

/-- Settles O49: linearity in the index; the upper half of a table is the lower half with one value XORed into
each of its 128 entries. -/
theorem tablesAreLinearInTheirIndex : Obligations.TablesAreLinearInTheirIndex := by
  refine ⟨tableRead_xor, fun poly k n => ?_, fun poly k => ?_⟩
  · rw [tableRead_buildTables]
    exact xorBelow_congr fun j hj => by rw [tableRead_one_shiftLeft poly k hj, BitVec.testBit_toNat]
  · have hupper : xorBelow 128 (fun n => tableRead (buildTables poly) k (BitVec.ofNat 8 (128 + n))) =
        xorBelow 128 fun n => tableRead (buildTables poly) k (BitVec.ofNat 8 n) := by
      rw [xorBelow_congr fun n hn => by rw [ofNat_upper_half hn, tableRead_xor], xorBelow_xor,
        xorBelow_const_even 64, BitVec.zero_xor]
    rw [xorBelow_add 128 128, hupper, BitVec.xor_self]

/-- Settles O55: the fold over POLY = 1 and the mods over POLY = x^63 by the recurrence, the listed values by
running the model. -/
theorem degeneratePolynomialsFoldAsListed : Obligations.DegeneratePolynomialsFoldAsListed :=
  ⟨fold_buildTables_one, fun _ => modsAt_one, by decide +kernel, modsAt_of_modsNext_eq (by decide),
    by decide +kernel⟩

end Sys2Proof.Machine
end

section
/-! SUPPORT. The head steps as concatenations (R123, R124), and a lane as a shifted and masked word (R120). -/

namespace Sys2Proof.Machine

/-- A word shifted by the width of a field, and the field XORed in: the field stands below the bits kept. -/
theorem shiftLeft_xor_setWidth {m n : Nat} (w : BitVec (m + n)) (x : BitVec n) :
    (w <<< n) ^^^ x.setWidth (m + n) = w.extractLsb' 0 m ++ x := by
  apply BitVec.eq_of_getLsbD_eq
  intro i hi
  rw [BitVec.getLsbD_xor, BitVec.getLsbD_shiftLeft, BitVec.getLsbD_setWidth, BitVec.getLsbD_append]
  by_cases h : i < n
  · simp [h, hi]
  · have hkept : i - n < m := by omega
    simp [h, hi, hkept, BitVec.getLsbD_of_ge x i (Nat.le_of_not_lt h)]

theorem headByte_eq_append (w : Word) (b : Byte) : headByte w b = w.extractLsb' 0 56 ++ b :=
  shiftLeft_xor_setWidth (m := 56) (n := 8) w b

theorem headHalf_eq_append (w : Word) (h : Half) : headHalf w h = w.extractLsb' 0 48 ++ h :=
  shiftLeft_xor_setWidth (m := 48) (n := 16) w h

/-- The low bits after a head byte are those of the old word, then the byte. -/
theorem extract_headByte (w : Word) (b : Byte) {n : Nat} (hn : n ≤ 56) :
    (headByte w b).extractLsb' 0 (n + 8) = w.extractLsb' 0 n ++ b := by
  apply BitVec.eq_of_getLsbD_eq
  intro i hi
  simp only [headByte_eq_append, BitVec.getLsbD_append, BitVec.getLsbD_extractLsb', Nat.zero_add, hi,
    decide_true, Bool.true_and]
  by_cases h : i < 8
  · simp [h]
  · have hkept : i - 8 < n := by omega
    simp [h, hkept, Nat.lt_of_lt_of_le hkept hn]

/-- A head char is two head bytes, high byte first (R124). -/
theorem headHalf_append (w : Word) (b c : Byte) : headHalf w (b ++ c) = headByte (headByte w b) c :=
  calc headHalf w (b ++ c)
    _ = w.extractLsb' 0 48 ++ (b ++ c) := headHalf_eq_append w (b ++ c)
    _ = w.extractLsb' 0 48 ++ b ++ c := BitVec.append_assoc.symm
    _ = (headByte w b).extractLsb' 0 56 ++ c := congrArg (· ++ c) (extract_headByte w b (by decide)).symm
    _ = headByte (headByte w b) c := (headByte_eq_append _ c).symm

/-- Eight head bytes replace the word: each leaves eight bits fewer of it (R123). -/
theorem foldl_headByte_eight (w : Word) (b0 b1 b2 b3 b4 b5 b6 b7 : Byte) :
    [b0, b1, b2, b3, b4, b5, b6, b7].foldl headByte w = packBytes b0 b1 b2 b3 b4 b5 b6 b7 := by
  simp only [List.foldl_cons, List.foldl_nil]
  rw [headByte_eq_append _ b7]
  iterate 7 rw [extract_headByte _ _ (by decide)]
  rw [show w.extractLsb' 0 0 ++ b0 = b0 from BitVec.zero_width_append _ b0, packBytes]

/-- Head bytes shift the old word out at the top and do not mix with it. -/
theorem foldl_headByte (w : Word) (bs : List Byte) :
    bs.foldl headByte w = (w <<< (8 * bs.length)) ^^^ bs.foldl headByte 0#64 := by
  induction bs using List.reverseRecOn with
  | nil => simp
  | append_singleton bs b ih =>
    simp only [List.foldl_append, List.foldl_cons, List.foldl_nil, ih, List.length_append, List.length_singleton,
      headByte, BitVec.shiftLeft_xor_distrib, Nat.mul_add, BitVec.shiftLeft_add]
    ac_rfl

theorem lane_setWidth (w : Word) (k : Nat) : (lane w k).setWidth 64 = (w >>> (8 * k)) &&& 0xFF#64 := by
  apply BitVec.eq_of_getLsbD_eq
  intro i hi
  have hmask : (0xFF#64 : Word).getLsbD i = decide (i < 8) := by
    interval_cases i <;> rfl
  rw [BitVec.getLsbD_and, hmask, lane]
  simp [Bool.and_comm, hi]

end Sys2Proof.Machine
end

section
/-! SUPPORT. The datapath commands as words and in lists: the rows without must-be-zero bits (R122, R125), and
what a list of datapath commands leaves, the commands of a message among them (R59, R128). -/

namespace Sys2Proof

/-- Every word with opcode 0x01 is an LDW (R122). -/
theorem decode_of_opOf_ldw {c : Cmd} (h : opOf c = 0x01#8) : decode c = .ok (.ldw (immOf c)) := by
  simp [decode_eq, h]

/-- Every word with opcode 0x04 is a FOLDW (R125). -/
theorem decode_of_opOf_foldw {c : Cmd} (h : opOf c = 0x04#8) : decode c = .ok (.foldw (immOf c)) := by
  simp [decode_eq, h]

end Sys2Proof

namespace Sys2Proof.Machine

/-- The commands LDW, SHB, SHH and FOLDW. -/
def isDatapath : Instr → Bool
  | .ldw _ | .shb _ | .shh _ | .foldw _ => true
  | .hashb _ _ | .rdw | .rdstat => false

/-- The accumulator that a datapath command leaves (R122 to R125). -/
def datapathW (t : Tables) (w : Word) : Instr → Word
  | .ldw v => v
  | .shb b => headByte w b
  | .shh c => headHalf w c
  | .foldw v => wordStep t w v
  | .hashb _ _ | .rdw | .rdstat => w

/-- Outside the fault state a datapath command writes its accumulator and answers ACK. -/
theorem exec_datapath {s : State} {i : Instr} (he : s.status.err = false) (hi : isDatapath i = true) :
    exec i s = .next (respond (setW s (datapathW s.tables s.w i)) .ack) := by
  cases i with
  | ldw v => exact exec_ldw_of_ok he v
  | shb b => exact exec_shb_of_ok he b
  | shh c => exact exec_shh_of_ok he c
  | foldw v => exact exec_foldw_of_ok he v
  | hashb | rdw | rdstat => cases hi

theorem execAll_cons_of_next {i : Instr} {rest : List Instr} {s t : State} (h : exec i s = .next t) :
    execAll (i :: rest) s = execAll rest t := by
  rw [execAll, h]

/-- Outside the fault state a list of datapath commands runs through, and nothing but `W` and the responses
changes. -/
theorem execAll_datapath {s : State} {is : List Instr} (he : s.status.err = false)
    (his : ∀ i ∈ is, isDatapath i = true) :
    execAll is s = .next
      { s with
        w := is.foldl (datapathW s.tables) s.w
        resps := s.resps ++ List.replicate is.length .ack } := by
  induction is generalizing s with
  | nil => simp [execAll]
  | cons i is ih =>
    obtain ⟨hi, hrest⟩ := List.forall_mem_cons.mp his
    have hnext : (respond (setW s (datapathW s.tables s.w i)) .ack).status.err = false := he
    rw [execAll_cons_of_next (exec_datapath he hi), ih hnext hrest]
    simp [List.replicate_succ]

theorem foldl_datapathW_shb (t : Tables) (w : Word) (bs : List Byte) :
    (bs.map .shb).foldl (datapathW t) w = bs.foldl headByte w := by
  rw [List.foldl_map]
  rfl

theorem execAll_shb {s : State} (he : s.status.err = false) (bs : List Byte) :
    execAll (bs.map .shb) s = .next
      { s with
        w := bs.foldl headByte s.w
        resps := s.resps ++ List.replicate bs.length .ack } := by
  rw [execAll_datapath he (by simp [isDatapath]), foldl_datapathW_shb, List.length_map]

/-! ### The commands of a message -/

/-- Induction over a list of whole groups of eight bytes. -/
theorem byteGroups_induction {P : (bs : List Byte) → 8 ∣ bs.length → Prop} (nil : P [] (Nat.dvd_zero 8))
    (group : ∀ b0 b1 b2 b3 b4 b5 b6 b7 rest (h : 8 ∣ rest.length), P rest h →
      P (b0 :: b1 :: b2 :: b3 :: b4 :: b5 :: b6 :: b7 :: rest) (Nat.dvd_add_self_right.mpr h))
    (bs : List Byte) (h : 8 ∣ bs.length) : P bs h := by
  induction bs using foldBytes.induct with
  | case1 b0 b1 b2 b3 b4 b5 b6 b7 rest ih => exact group _ _ _ _ _ _ _ _ _ _ (ih (Nat.dvd_add_self_right.mp h))
  | case2 bs hbs =>
    obtain _ | ⟨_, _ | ⟨_, _ | ⟨_, _ | ⟨_, _ | ⟨_, _ | ⟨_, _ | ⟨_, _ | ⟨_, _⟩⟩⟩⟩⟩⟩⟩⟩ := bs
    · exact nil
    iterate 7 simp at h
    exact (hbs _ _ _ _ _ _ _ _ _ rfl).elim

theorem isDatapath_of_mem_foldBytes {bs : List Byte} {i : Instr} (h : i ∈ foldBytes bs) :
    isDatapath i = true := by
  induction bs using foldBytes.induct with
  | case1 b0 b1 b2 b3 b4 b5 b6 b7 rest ih =>
    rcases List.mem_cons.mp h with rfl | h
    · rfl
    · exact ih h
  | case2 bs hbs =>
    rw [foldBytes.eq_2 _ hbs] at h
    cases h

/-- The commands of R128 for a message of `n` bytes: `n mod 8` SHB and then `n div 8` FOLDW. -/
def messageStream (bs : List Byte) : List Instr :=
  (bs.take (bs.length % 8)).map .shb ++ foldBytes (bs.drop (bs.length % 8))

/-- `HASH.BYTES` loads the seed and then sends the message (R161). -/
theorem macroBytes_eq_cons_messageStream (seed : Word) (bs : List Byte) :
    macroBytes seed bs = .ldw seed :: messageStream bs := rfl

theorem isDatapath_of_mem_messageStream (bs : List Byte) : ∀ i ∈ messageStream bs, isDatapath i = true := by
  intro i hi
  rcases List.mem_append.mp hi with h | h
  · obtain ⟨b, _, rfl⟩ := List.mem_map.mp h
    rfl
  · exact isDatapath_of_mem_foldBytes h

end Sys2Proof.Machine
end

section
/-! SUPPORT. The laws of the fold over built tables: linear in the word, one entry per lane, one mods entry per
bit (R121, R127), and bit 0 clear where POLY has it clear (R130). -/

namespace Sys2Proof.Machine

theorem fold_buildTables_zero (poly : Word) : fold (buildTables poly) 0#64 = 0#64 := by
  rw [fold_buildTables]
  exact xorBelow_zero fun b _ => by simp

theorem fold_buildTables_xor (poly a b : Word) :
    fold (buildTables poly) (a ^^^ b) = fold (buildTables poly) a ^^^ fold (buildTables poly) b := by
  simp only [fold_buildTables, BitVec.getLsbD_xor, ite_xor_zero, xorBelow_xor]

/-- A single bit selects one mods entry. -/
theorem fold_buildTables_one_shiftLeft (poly : Word) {b : Nat} (hb : b < 64) :
    fold (buildTables poly) (1#64 <<< b) = modsAt poly b := by
  rw [fold_buildTables, ← BitVec.twoPow_eq, ← xorBelow_single hb (modsAt poly b)]
  refine xorBelow_congr fun c hc => ?_
  by_cases h : c = b
  · subst h
    simp [hc]
  · simp [h, Ne.symm h]

/-- The fold is the XOR of one entry per lane. -/
theorem fold_buildTables_lanes (poly w : Word) : fold (buildTables poly) w =
    xorBelow 8 fun k => tableEntry poly k (lane w k).toNat := by
  simp [fold, xorBelow]

/-- If all other lanes are 0, the fold is what lane `k` contributes. -/
theorem fold_buildTables_single_lane {poly w : Word} {k : Fin 8}
    (h : ∀ j : Nat, j < 8 → j ≠ k.val → lane w j = 0#8) :
    fold (buildTables poly) w = tableRead (buildTables poly) k (lane w k.val) := by
  rw [tableRead_buildTables, fold_buildTables_lanes, ← xorBelow_single k.isLt (tableEntry poly k.val _)]
  refine xorBelow_congr fun j hj => ?_
  by_cases hjk : j = k.val
  · rw [if_pos hjk, hjk]
  · rw [if_neg hjk, h j hj hjk]
    exact tableEntry_zero poly j

/-! ### Bit 0 (R130) -/

/-- A bit clear in every value is clear in their indexed XOR. -/
theorem getLsbD_xorBelow_of_clear {n i : Nat} {f : Nat → Word} (h : ∀ k, (f k).getLsbD i = false) :
    (xorBelow n f).getLsbD i = false := by
  induction n with
  | zero => simp [xorBelow]
  | succ n ih => rw [xorBelow, BitVec.getLsbD_xor, ih, h n, Bool.xor_false]

section
variable {poly : Word} (h : poly.getLsbD 0 = false)
include h

/-- The shift clears bit 0, and XOR with POLY leaves it clear. -/
theorem modsAt_bit_zero (i : Nat) : (modsAt poly i).getLsbD 0 = false := by
  cases i with
  | zero => exact h
  | succ i =>
    rw [modsAt, modsNext]
    split_ifs
    · rw [BitVec.getLsbD_xor, h, Bool.xor_false, BitVec.getLsbD_shiftLeft]
      rfl
    · rw [BitVec.getLsbD_shiftLeft]
      rfl

theorem tableEntry_bit_zero (k i : Nat) : (tableEntry poly k i).getLsbD 0 = false :=
  getLsbD_xorBelow_of_clear fun j => by
    split_ifs
    · exact modsAt_bit_zero h _
    · rfl

theorem fold_bit_zero (w : Word) : (fold (buildTables poly) w).getLsbD 0 = false := by
  rw [fold_buildTables_lanes]
  exact getLsbD_xorBelow_of_clear fun k => tableEntry_bit_zero h k _

end

end Sys2Proof.Machine
end

section
/-! SUPPORT. The polynomial of a message (R128): of concatenations, of head bytes, and of the word steps, each of
which multiplies by `x^64` modulo the generator (R127). -/

namespace Sys2Proof.Machine
open Polynomial

/-! ### Words put together -/

theorem polyOf_zero (n : Nat) : polyOf (0#n) = 0 := by
  simp [polyOf]

/-- A zero extension is the same polynomial (R72). -/
theorem polyOf_setWidth {m n : Nat} (h : m ≤ n) (v : BitVec m) : polyOf (v.setWidth n) = polyOf v := by
  ext i
  rw [coeff_polyOf, coeff_polyOf, BitVec.getLsbD_setWidth]
  by_cases hi : i < n
  · simp [hi]
  · simp [hi, BitVec.getLsbD_of_ge v i (h.trans (Nat.le_of_not_lt hi))]

theorem polyOf_append {m n : Nat} (a : BitVec m) (b : BitVec n) :
    polyOf (a ++ b) = polyOf a * X ^ n + polyOf b := by
  ext i
  rw [coeff_add, coeff_mul_X_pow', coeff_polyOf, coeff_polyOf, coeff_polyOf, BitVec.getLsbD_append]
  by_cases h : i < n
  · simp [h, Nat.not_le.mpr h]
  · simp [h, Nat.le_of_not_lt h]

/-- A shift that loses no term is multiplication by a power of `x`. -/
theorem polyOf_shiftLeft {w : Word} {m n : Nat} (hdeg : (polyOf w).degree < m) (h : m + n ≤ 64) :
    polyOf (w <<< n) = polyOf w * X ^ n := by
  ext i
  rw [coeff_mul_X_pow', coeff_polyOf, BitVec.getLsbD_shiftLeft]
  by_cases hn : n ≤ i
  · by_cases hi : i < 64
    · simp [hi, hn, Nat.not_lt.mpr hn, coeff_polyOf]
    · have hcoeff : (polyOf w).coeff (i - n) = 0 :=
        coeff_eq_zero_of_degree_lt (hdeg.trans_le (Nat.cast_le.mpr (by omega)))
      simp [hi, hcoeff]
  · simp [hn, Nat.lt_of_not_le hn]

/-- Indexed XOR is a sum. -/
theorem polyOf_xorBelow (n : Nat) (f : Nat → Word) :
    polyOf (xorBelow n f) = ∑ b ∈ Finset.range n, polyOf (f b) := by
  induction n with
  | zero => exact polyOf_zero 64
  | succ n ih => rw [xorBelow, polyOf_xor, ih, Finset.sum_range_succ]

/-! ### The fold and the word step (R127) -/

/-- Term by term, `x^b * x^64` is congruent to the mods entry that bit `b` selects. -/
theorem generator_dvd_mul_X_pow_sub_fold (poly w : Word) :
    generator poly ∣ polyOf w * X ^ 64 - polyOf (fold (buildTables poly) w) := by
  rw [fold_buildTables, polyOf_xorBelow, polyOf, Finset.sum_mul, ← Finset.sum_sub_distrib]
  refine Finset.dvd_sum fun b _ => ?_
  split_ifs
  · rw [← pow_add, Nat.add_comm]
    exact generator_dvd_X_pow_sub_modsAt poly b
  · rw [zero_mul, polyOf_zero, sub_zero]
    exact dvd_zero _

theorem generator_dvd_wordStep (poly w v : Word) :
    generator poly ∣ polyOf w * X ^ 64 + polyOf v - polyOf (wordStep (buildTables poly) w v) := by
  rw [wordStep, polyOf_xor, add_sub_add_right_eq_sub]
  exact generator_dvd_mul_X_pow_sub_fold poly w

/-! ### The message -/

theorem messagePoly_concat (bs : List Byte) (b : Byte) :
    messagePoly (bs ++ [b]) = messagePoly bs * X ^ 8 + polyOf b := by
  rw [messagePoly, List.foldl_append]
  rfl

theorem messagePoly_append (as bs : List Byte) :
    messagePoly (as ++ bs) = messagePoly as * X ^ (8 * bs.length) + messagePoly bs := by
  induction bs using List.reverseRecOn with
  | nil => simp [messagePoly]
  | append_singleton bs b ih =>
    rw [← List.append_assoc, messagePoly_concat, messagePoly_concat, ih, List.length_append,
      List.length_singleton]
    ring

/-- A group of eight bytes and its word are one polynomial (R73). -/
theorem polyOf_packBytes (b0 b1 b2 b3 b4 b5 b6 b7 : Byte) :
    polyOf (packBytes b0 b1 b2 b3 b4 b5 b6 b7) = messagePoly [b0, b1, b2, b3, b4, b5, b6, b7] := by
  rw [packBytes]
  iterate 7 rw [polyOf_append]
  simp [messagePoly]

theorem degree_messagePoly_lt (bs : List Byte) : (messagePoly bs).degree < (8 * bs.length : Nat) := by
  induction bs using List.reverseRecOn with
  | nil => simp [messagePoly]
  | append_singleton bs b ih =>
    rw [degree_lt_iff_coeff_zero] at ih ⊢
    intro i hi
    rw [List.length_append, List.length_singleton] at hi
    rw [messagePoly_concat, coeff_add, coeff_mul_X_pow', if_pos (by omega), ih _ (by omega), coeff_polyOf,
      BitVec.getLsbD_of_ge b i (by omega)]
    simp

/-- Head bytes onto 0, no more than a word holds, leave their polynomial. -/
theorem polyOf_foldl_headByte_zero {bs : List Byte} (h : bs.length ≤ 8) :
    polyOf (bs.foldl headByte 0#64) = messagePoly bs := by
  induction bs using List.reverseRecOn with
  | nil => exact polyOf_zero 64
  | append_singleton bs b ih =>
    rw [List.length_append, List.length_singleton] at h
    have hbs : polyOf (bs.foldl headByte 0#64) = messagePoly bs := ih (by omega)
    have hdeg := degree_messagePoly_lt bs
    rw [← hbs] at hdeg
    rw [List.foldl_append, List.foldl_cons, List.foldl_nil, headByte, zextByte, polyOf_xor,
      polyOf_shiftLeft hdeg (by omega), polyOf_setWidth (by decide), hbs, messagePoly_concat]

/-- Head bytes onto a word: what the shift leaves of the word, and the bytes (R244). -/
theorem polyOf_foldl_headByte (w : Word) {bs : List Byte} (h : bs.length ≤ 8) :
    polyOf (bs.foldl headByte w) = polyOf (w <<< (8 * bs.length)) + messagePoly bs := by
  rw [foldl_headByte, polyOf_xor, polyOf_foldl_headByte_zero h]

/-- FOLDW over whole groups: the old word and the bytes after it, modulo the generator. -/
theorem generator_dvd_foldBytes (poly w : Word) {bs : List Byte} (h : 8 ∣ bs.length) :
    generator poly ∣ polyOf w * X ^ (8 * bs.length) + messagePoly bs -
      polyOf ((foldBytes bs).foldl (datapathW (buildTables poly)) w) := by
  induction bs, h using byteGroups_induction generalizing w with
  | nil => simp [foldBytes, messagePoly]
  | group b0 b1 b2 b3 b4 b5 b6 b7 rest _ ih =>
    have hmessage : messagePoly (b0 :: b1 :: b2 :: b3 :: b4 :: b5 :: b6 :: b7 :: rest) =
        polyOf (packBytes b0 b1 b2 b3 b4 b5 b6 b7) * X ^ (8 * rest.length) + messagePoly rest := by
      rw [polyOf_packBytes]
      exact messagePoly_append [b0, b1, b2, b3, b4, b5, b6, b7] rest
    have hstep := generator_dvd_wordStep poly w (packBytes b0 b1 b2 b3 b4 b5 b6 b7)
    have hrest := ih (wordStep (buildTables poly) w (packBytes b0 b1 b2 b3 b4 b5 b6 b7))
    rw [hmessage]
    convert dvd_add (dvd_mul_of_dvd_left hstep (X ^ (8 * rest.length))) hrest using 1
    simp only [List.length_cons, foldBytes, List.foldl_cons, foldwB, datapathW]
    ring

/-- The commands of a message leave what the head's shift leaves of the seed, and the message, modulo the
generator (R128). -/
theorem polyOf_messageStream (poly w : Word) (bs : List Byte) :
    polyOf ((messageStream bs).foldl (datapathW (buildTables poly)) w) =
      (polyOf (w <<< (8 * (bs.length % 8))) * X ^ (64 * (bs.length / 8)) + messagePoly bs) %ₘ
        generator poly := by
  have htake : (bs.take (bs.length % 8)).length = bs.length % 8 := by
    rw [List.length_take]; omega
  have hdrop : (bs.drop (bs.length % 8)).length = 8 * (bs.length / 8) := by
    rw [List.length_drop]; omega
  have hbits : 8 * (8 * (bs.length / 8)) = 64 * (bs.length / 8) := by omega
  have hmessage : messagePoly bs = messagePoly (bs.take (bs.length % 8)) * X ^ (64 * (bs.length / 8)) +
      messagePoly (bs.drop (bs.length % 8)) := by
    rw [← hbits, ← hdrop, ← messagePoly_append, List.take_append_drop]
  have hhead := polyOf_foldl_headByte w (bs := bs.take (bs.length % 8)) (by omega)
  have hgroups := generator_dvd_foldBytes poly ((bs.take (bs.length % 8)).foldl headByte w) ⟨_, hdrop⟩
  rw [hdrop, hbits, hhead, htake, add_mul, add_assoc, ← hmessage] at hgroups
  rw [messageStream, List.foldl_append, foldl_datapathW_shb]
  exact polyOf_eq_modByMonic_of_dvd hgroups

theorem execAll_messageStream {s : State} (he : s.status.err = false) (ht : s.tables = buildTables s.cfg.poly)
    (bs : List Byte) :
    ∃ t, execAll (messageStream bs) s = .next t ∧ polyOf t.w =
      (polyOf (s.w <<< (8 * (bs.length % 8))) * X ^ (64 * (bs.length / 8)) + messagePoly bs) %ₘ
        generator s.cfg.poly := by
  refine ⟨_, execAll_datapath he (isDatapath_of_mem_messageStream bs), ?_⟩
  rw [← polyOf_messageStream, ht]

end Sys2Proof.Machine
end

section
/-! The datapath: the commands LDW, SHB, SHH and FOLDW, and the fold they are built on (R120 to R130). -/

namespace Sys2Proof.Machine

/-- Settles O12: the shift as a concatenation, eight of them one after the other, and the row's must-be-zero
bits. -/
theorem shbShiftsAByteInWithoutReduction : Obligations.ShbShiftsAByteInWithoutReduction := by
  refine ⟨fun s b he => exec_shb_of_ok he b, headByte_eq_append,
    fun s b0 b1 b2 b3 b4 b5 b6 b7 he => ?_, fun s c he hop hmbz => ?_⟩
  · exact ⟨_, execAll_shb he [b0, b1, b2, b3, b4, b5, b6, b7],
      foldl_headByte_eight s.w b0 b1 b2 b3 b4 b5 b6 b7⟩
  · have hillegal : ∀ i, decode c ≠ .ok i := (decode_ne_ok_iff c).mpr (.inr (.inl ⟨hop, hmbz⟩))
    exact hop ▸ runCmd_of_illegal he hillegal

/-- Settles O13: a char is its two bytes, and shifting it in is shifting them in one after the other. -/
theorem shhShiftsACharInLikeTwoShb : Obligations.ShhShiftsACharInLikeTwoShb := by
  refine ⟨fun s h he => exec_shh_of_ok he h, headHalf_eq_append, fun s h he => ?_, fun s c he hop hmbz => ?_⟩
  · refine ⟨_, _, exec_shh_of_ok he h, execAll_shb he [h.extractLsb' 8 8, h.extractLsb' 0 8], ?_⟩
    have hbytes : h.extractLsb' 8 8 ++ h.extractLsb' 0 8 = h :=
      BitVec.extractLsb'_append_extractLsb' (w := 8) (len := 8)
    exact (congrArg (headHalf s.w) hbytes).symm.trans (headHalf_append s.w _ _)
  · have hillegal : ∀ i, decode c ≠ .ok i := (decode_ne_ok_iff c).mpr (.inr (.inr (.inl ⟨hop, hmbz⟩)))
    exact hop ▸ runCmd_of_illegal he hillegal

/-- Settles O14: the word step of the old `W`, whose fold is 0 over built tables where `W` is 0. -/
theorem foldwIsTheNineTermXor : Obligations.FoldwIsTheNineTermXor := by
  refine ⟨fun s v he => exec_foldw_of_ok he v, fun s v he htables hw => ?_, fun _ => decode_of_opOf_foldw⟩
  have hstep : wordStep s.tables s.w v = v := by
    rw [wordStep, htables, hw, fold_buildTables_zero, BitVec.zero_xor]
  rw [exec_foldw_of_ok he, hstep]
  rfl

/-- Settles O15: a lane bit by bit; the entry at index 0 is 0, so only lane `k` is left of the fold. -/
theorem lanesSelectBytesAndZeroLanesContributeNothing :
    Obligations.LanesSelectBytesAndZeroLanesContributeNothing :=
  ⟨fun w k _ => lane_setWidth w k, fun poly k => (tableRead_buildTables poly k _).trans (tableEntry_zero poly k),
    fun _ _ _ => fold_buildTables_single_lane⟩

/-- Settles O50: all four laws follow from the fold as the XOR of the mods its bits select. -/
theorem foldIsTheXorOfTheModsItsBitsSelect : Obligations.FoldIsTheXorOfTheModsItsBitsSelect :=
  ⟨fold_buildTables_zero, fold_buildTables_xor, fold_buildTables,
    fun poly _ => fold_buildTables_one_shiftLeft poly⟩

/-- Settles O52: the fold is congruent to the product, and below the generator in degree. -/
theorem foldIsMultiplicationByX64ModuloTheGenerator : Obligations.FoldIsMultiplicationByX64ModuloTheGenerator :=
  fun poly w => polyOf_eq_modByMonic_of_dvd (generator_dvd_mul_X_pow_sub_fold poly w)

/-- Settles O53: the seeded form by induction over the groups of the message; from `W = 0` the seed's term is 0. -/
theorem fingerprintIsTheMessageModuloTheGenerator : Obligations.FingerprintIsTheMessageModuloTheGenerator := by
  refine ⟨fun s bs he ht hw => ?_, fun s bs he ht => execAll_messageStream he ht bs⟩
  obtain ⟨t, hrun, hpoly⟩ := execAll_messageStream he ht bs
  rw [hw, BitVec.zero_shiftLeft, polyOf_zero, zero_mul, zero_add] at hpoly
  exact ⟨t, hrun, hpoly⟩

/-- Settles O54: bit 0 is clear in every mods entry, hence in every XOR of them. -/
theorem documentedPolynomialLeavesBitZeroClear : Obligations.DocumentedPolynomialLeavesBitZeroClear := by
  refine ⟨by decide, fun poly h => ⟨modsAt_bit_zero h, fun k n => ?_, fold_bit_zero h⟩,
    fun s t v hinv hpoly he ht => ?_⟩
  · rw [tableRead_buildTables]
    exact tableEntry_bit_zero h _ _
  · rw [exec_foldw_of_ok he] at ht
    cases ht
    rw [respond_w, setW_w, wordStep, BitVec.getLsbD_xor, hinv.tablesBuilt, fold_bit_zero hpoly,
      Bool.false_xor]

/-- Settles O11, outside the fault state and in it; the row has no must-be-zero bits. -/
theorem ldwLoadsTheAccumulator : Obligations.LdwLoadsTheAccumulator :=
  ⟨fun _ v he => exec_ldw_of_ok he v, fun _ _ he => exec_of_err he Instr.noConfusion,
    fun _ => decode_of_opOf_ldw⟩

end Sys2Proof.Machine
end

section
/-! SUPPORT. `HashBytes` as two folds, as the command stream of R143, and cut in two (R146, R148). -/

namespace Sys2Proof.Machine

/-! ### The loops as folds over their positions (R146) -/

theorem headLoop_eq_foldl (A : Nat → Byte) (n s : Nat) (w : Word) :
    headLoop A n s w = (List.range n).foldl (fun w k => headByte w (A (s + k))) w := by
  induction n with
  | zero => rfl
  | succ n ih => rw [headLoop_add, ih, List.range_succ, List.foldl_concat]; rfl

theorem wordLoop_eq_foldl (t : Tables) (A : Nat → Byte) (q s : Nat) (w : Word) :
    wordLoop t A q s w = (List.range q).foldl (fun w k => wordStep t w (memRead8 A (s + 8 * k))) w := by
  induction q with
  | zero => rfl
  | succ q ih => rw [wordLoop_add, ih, List.range_succ, List.foldl_concat]; rfl

/-! ### The command stream of a range (R143) -/

theorem isDatapath_of_mem_hashbStream {A : Nat → Byte} {off len : Nat} :
    ∀ i ∈ hashbStream A off len, isDatapath i = true := by
  intro i hi
  rcases List.mem_append.mp hi with h | h
  all_goals
    obtain ⟨_, _, rfl⟩ := List.mem_map.mp h
    rfl

/-- The stream leaves the hash of the range: its SHB are the head loop, its FOLDW the word loop. -/
theorem foldl_datapathW_hashbStream (t : Tables) (A : Nat → Byte) (off len : Nat) (w : Word) :
    (hashbStream A off len).foldl (datapathW t) w = hashBytes t A off len w := by
  rw [hashbStream, List.foldl_append, List.foldl_map, List.foldl_map, hashBytes, headLoop_eq_foldl,
    wordLoop_eq_foldl]
  rfl

/-- Outside the fault state the stream runs through, whatever the range. -/
theorem execAll_hashbStream {s : State} (he : s.status.err = false) (A : Nat → Byte) (off len : Nat) :
    execAll (hashbStream A off len) s = .next
      { s with
        w := hashBytes s.tables A off len s.w
        resps := s.resps ++ List.replicate (len % 8 + len / 8) .ack } := by
  rw [execAll_datapath he isDatapath_of_mem_hashbStream, foldl_datapathW_hashbStream]
  simp [hashbStream]

/-- One FOLDW.B per group of a range of whole groups. -/
theorem foldBytes_range (A : Nat → Byte) (q s : Nat) :
    foldBytes ((List.range (8 * q)).map fun n => A (s + n)) =
      (List.range q).map fun k => .foldw (memRead8 A (s + 8 * k)) := by
  induction q generalizing s with
  | zero => rfl
  | succ q ih =>
    have hbytes : (List.range (8 * (q + 1))).map (fun n => A (s + n)) =
        A s :: A (s + 1) :: A (s + 2) :: A (s + 3) :: A (s + 4) :: A (s + 5) :: A (s + 6) :: A (s + 7) ::
          (List.range (8 * q)).map fun n => A (s + 8 + n) := by
      rw [Nat.mul_succ, Nat.add_comm, List.range_add, List.map_append, List.map_map]
      simp only [Function.comp_def, ← Nat.add_assoc]
      rfl
    rw [hbytes, foldBytes, ih, List.range_succ_eq_map, List.map_cons, List.map_map]
    simp only [Function.comp_def, Nat.mul_succ, Nat.add_assoc, Nat.add_comm 8]
    rfl

/-- The commands of the message that lies in a range are the stream of that range. -/
theorem messageStream_range (A : Nat → Byte) (off len : Nat) :
    messageStream ((List.range len).map fun n => A (off + n)) = hashbStream A off len := by
  have hsplit : (List.range len).map (fun n => A (off + n)) =
      (List.range (len % 8)).map (fun n => A (off + n)) ++
        (List.range (8 * (len / 8))).map fun n => A (off + len % 8 + n) := by
    conv_lhs => rw [← Nat.mod_add_div len 8, List.range_add, List.map_append, List.map_map]
    simp only [Function.comp_def, Nat.add_assoc]
  rw [messageStream, List.length_map, List.length_range, hsplit, List.take_left' (by simp),
    List.drop_left' (by simp), foldBytes_range, List.map_map]
  rfl

/-! ### Chaining (R148) -/

/-- A range cut where whole groups are left: the groups behind the cut are those of the whole range. -/
theorem hashBytes_add (t : Tables) (A : Nat → Byte) (off m : Nat) {n : Nat} (seed : Word) (hn : n % 8 = 0) :
    hashBytes t A off (m + n) seed = hashBytes t A (off + m) n (hashBytes t A off m seed) := by
  have hhead : (m + n) % 8 = m % 8 := by omega
  have hgroups : (m + n) / 8 = m / 8 + n / 8 := by omega
  have hcut : off + m % 8 + 8 * (m / 8) = off + m := by omega
  simp only [hashBytes, hhead, hgroups, hn, wordLoop_add, hcut, headLoop, Nat.add_zero]

/-- Chaining over two lists, the second of whole groups, is one call over both. -/
theorem hashByteList_append (t : Tables) (xs ys : List Byte) (seed : Word) (h : ys.length % 8 = 0) :
    hashByteList t (xs ++ ys) seed = hashByteList t ys (hashByteList t xs seed) := by
  have hfirst : hashBytes t (fun a => (xs ++ ys).getD a 0#8) 0 xs.length seed = hashByteList t xs seed :=
    hashBytes_congr fun k hk => List.getD_append _ _ _ _ (by omega)
  rw [hashByteList, List.length_append, hashBytes_add _ _ _ _ _ h, hfirst]
  exact hashBytes_congr fun k hk => by
    rw [Nat.zero_add, Nat.zero_add, List.getD_append_right _ _ _ _ (Nat.le_add_right _ _),
      Nat.add_sub_cancel_left]

/-- A chain whose later chunks are whole groups is one call over the whole. -/
theorem foldl_hashByteList (t : Tables) (first : List Byte) (later : List (List Byte)) (seed : Word)
    (h : ∀ chunk ∈ later, chunk.length % 8 = 0) :
    later.foldl (fun w chunk => hashByteList t chunk w) (hashByteList t first seed) =
      hashByteList t (first ++ later.flatten) seed := by
  induction later generalizing first with
  | nil => simp
  | cons chunk rest ih =>
    obtain ⟨hchunk, hrest⟩ := List.forall_mem_cons.mp h
    rw [List.foldl_cons, ← hashByteList_append t first chunk seed hchunk, ih _ hrest, List.flatten_cons,
      List.append_assoc]

end Sys2Proof.Machine
end

section
/-! SUPPORT. The bounds check of HASHB and the empty range (R142, R144). -/

namespace Sys2Proof.Machine

@[simp] theorem hashBytes_zero (t : Tables) (A : Nat → Byte) (off : Nat) (seed : Word) :
    hashBytes t A off 0 seed = seed := rfl

section
variable {s : State} (he : s.status.err = false)
include he

/-- HASHB faults on no range within the sequence: outside the fault state a success leaves ERR at 0. -/
theorem exec_hashb_eq_raise_iff (off len : Quad) :
    exec (.hashb off len) s = .next (raise .invalidArgument 0x08#8 s) ↔ s.seqLen < off.toNat + len.toNat := by
  refine ⟨fun hraise => ?_, exec_hashb_of_gt he⟩
  by_contra hle
  rw [exec_hashb_of_le he (Nat.not_lt.mp hle)] at hraise
  injection hraise with hstate
  have herr := congrArg (fun u => u.status.err) hstate
  simp [he] at herr

/-- An empty range in bounds leaves the accumulator (R144). -/
theorem exec_hashb_empty {off : Quad} (h : off.toNat ≤ s.seqLen) :
    exec (.hashb off 0#32) s = .next (respond s .ack) := by
  rw [exec_hashb_of_le (len := 0#32) he h]
  rfl

end

theorem two_pow_le_toNat_of_bit31 {v : Quad} (h : v.getLsbD 31 = true) : 2 ^ 31 ≤ v.toNat :=
  Nat.ge_two_pow_of_testBit h

/-- A sequence that a run attaches is shorter than `2^31` (R6, R57). -/
theorem Inv.seqLen_lt {s : State} (h : Inv s) : s.seqLen < 2 ^ 31 := by
  obtain ⟨_, hmax⟩ := h.cfgLegal
  have hfits := h.seqFits
  omega

end Sys2Proof.Machine
end

section
/-! The byte-sequence hash: the command HASHB, the function `HashBytes`, and chaining (R140 to R148). -/

namespace Sys2Proof.Machine

/-- Settles O16, on the two sides of the bounds test; the row has no must-be-zero bits. -/
theorem hashbHashesItsRangeOrRaisesInvalidArgument : Obligations.HashbHashesItsRangeOrRaisesInvalidArgument :=
  ⟨fun _ _ _ he => exec_hashb_of_le he, fun _ _ _ he => exec_hashb_of_gt he, fun _ => decode_of_opOf_hashb⟩

/-- Settles O17: HASHB faults exactly on a range out of bounds, and an operand with bit 31 set exceeds every
`SEQLEN` of a run. -/
theorem boundsCheckNeverWrapsAndCoversEmptyRanges : Obligations.BoundsCheckNeverWrapsAndCoversEmptyRanges := by
  refine ⟨fun s off len he => (exec_hashb_eq_raise_iff he off len).symm, fun s off he h => exec_hashb_of_gt he h,
    fun s off he => exec_hashb_empty he, fun s off len hinv he hbit => exec_hashb_of_gt he ?_, fun off len => ?_⟩
  · have hlen := hinv.seqLen_lt
    have hoperand := hbit.imp two_pow_le_toNat_of_bit31 two_pow_le_toNat_of_bit31
    omega
  · have hoff := off.isLt
    have hlen := len.isLt
    omega

/-- Settles O18: an empty range has neither head bytes nor groups. -/
theorem emptyInputReturnsTheSeed : Obligations.EmptyInputReturnsTheSeed :=
  ⟨hashBytes_zero, fun _ _ he => exec_hashb_empty he, fun _ he _ => exec_hashb_empty he (Nat.zero_le _)⟩

/-- Settles O19: each loop is the fold of its step over its positions. -/
theorem hashBytesIsHeadStepsThenWordSteps : Obligations.HashBytesIsHeadStepsThenWordSteps := by
  intro t A off len seed
  rw [hashBytes, wordLoop_eq_foldl, headLoop_eq_foldl]
  rfl

/-- Settles O21: the stream leaves the hash of the range, and is the message of `HASH.BYTES` after its load. -/
theorem hashbIsItsCommandStream : Obligations.HashbIsItsCommandStream := by
  refine ⟨fun s off len he h => ⟨_, exec_hashb_of_le he h, rfl, execAll_hashbStream he _ _ _⟩,
    fun A off len seed => ?_, fun s A off len he => ⟨_, execAll_hashbStream he A off len, rfl⟩⟩
  rw [macroBytes_eq_cons_messageStream, messageStream_range]

/-- Settles O22: chaining by the cut of a range before whole groups; the numbers of R148 by running the model. -/
theorem chainingEqualsOneCallForWholeWordTails : Obligations.ChainingEqualsOneCallForWholeWordTails :=
  ⟨hashByteList_append, foldl_hashByteList, by decide⟩

end Sys2Proof.Machine
end

section
/-! SUPPORT. The typed sequences as packed words (R160 to R166): the words of a list of chars or of integers, and
the functions and expansions in terms of them. -/

namespace Sys2Proof.Machine

/-! ### The packed words of a list of elements (R53, R73) -/

/-- The words of the full groups of four chars. -/
def charWords : List Half → List Word
  | c0 :: c1 :: c2 :: c3 :: rest => packChars c0 c1 c2 c3 :: charWords rest
  | [] | [_] | [_, _] | [_, _, _] => []

/-- The words of the full pairs of 32-bit integers. -/
def intWords : List Quad → List Word
  | i0 :: i1 :: rest => packInts i0 i1 :: intWords rest
  | [] | [_] => []

theorem length_charWords (cs : List Half) : (charWords cs).length = cs.length / 4 := by
  induction cs using charWords.induct with
  | case1 c0 c1 c2 c3 rest ih =>
    simp only [charWords, List.length_cons, ih]
    omega
  | case2 | case3 | case4 | case5 => simp [charWords]

theorem length_intWords (is : List Quad) : (intWords is).length = is.length / 2 := by
  induction is using intWords.induct with
  | case1 i0 i1 rest ih =>
    simp only [intWords, List.length_cons, ih]
    omega
  | case2 | case3 => simp [intWords]

/-- The `FOLDW.C` of a list send its words (R162). -/
theorem foldChars_eq_map (cs : List Half) : foldChars cs = (charWords cs).map .foldw := by
  induction cs using charWords.induct with
  | case1 c0 c1 c2 c3 rest ih => rw [foldChars, charWords, ih]; rfl
  | case2 | case3 | case4 | case5 => rfl

/-- The `FOLDW.I` of a list send its words (R164). -/
theorem foldInts_eq_map (is : List Quad) : foldInts is = (intWords is).map .foldw := by
  induction is using intWords.induct with
  | case1 i0 i1 rest ih => rw [foldInts, intWords, ih]; rfl
  | case2 | case3 => rfl

theorem charSteps_eq_foldl (t : Tables) (w : Word) (cs : List Half) :
    charSteps t w cs = (charWords cs).foldl (wordStep t) w := by
  induction cs using charWords.induct generalizing w with
  | case1 c0 c1 c2 c3 rest ih => exact ih _
  | case2 | case3 | case4 | case5 => rfl

theorem intSteps_eq_foldl (t : Tables) (w : Word) (is : List Quad) :
    intSteps t w is = (intWords is).foldl (wordStep t) w := by
  induction is using intWords.induct generalizing w with
  | case1 i0 i1 rest ih => exact ih _
  | case2 | case3 => rfl

/-- Whole groups of chars serialize to the bytes of their words. -/
theorem charWords_flatMap_be64 {cs : List Half} (h : cs.length % 4 = 0) :
    (charWords cs).flatMap be64 = cs.flatMap be16 := by
  induction cs using charWords.induct with
  | case1 c0 c1 c2 c3 rest ih =>
    have hrest : rest.length % 4 = 0 := by rwa [← Nat.add_mod_right]
    simp [charWords, be64_packChars, ih hrest]
  | case2 => rfl
  | case3 | case4 | case5 => simp at h

/-- Whole pairs of integers serialize to the bytes of their words. -/
theorem intWords_flatMap_be64 {is : List Quad} (h : is.length % 2 = 0) :
    (intWords is).flatMap be64 = is.flatMap be32 := by
  induction is using intWords.induct with
  | case1 i0 i1 rest ih =>
    have hrest : rest.length % 2 = 0 := by rwa [← Nat.add_mod_right]
    simp [intWords, be64_packInts, ih hrest]
  | case2 => rfl
  | case3 => simp at h

/-! ### The two shapes of an integer list (R164) -/

/-- A list of integers is of even length, or is a first element before such a list. -/
theorem even_or_cons_even (is : List Quad) :
    is.length % 2 = 0 ∨ ∃ i0 rest, is = i0 :: rest ∧ rest.length % 2 = 0 := by
  cases is with
  | nil => exact .inl rfl
  | cons i0 rest =>
    refine (Nat.mod_two_eq_zero_or_one rest.length).symm.imp (fun h => ?_) fun h => ⟨i0, rest, rfl, h⟩
    rw [List.length_cons]; omega

section
variable {is : List Quad} (h : is.length % 2 = 0)
include h

theorem macroInts_of_even : macroInts is = .ldw 0#64 :: (intWords is).map .foldw := by
  rw [macroInts.eq_def, if_pos h, foldInts_eq_map, clrw]

theorem hashInts_of_even (t : Tables) : hashInts t is = (intWords is).foldl (wordStep t) 0#64 := by
  rw [hashInts.eq_def, if_pos h, intSteps_eq_foldl]

theorem length_cons_mod_two_ne_zero (i0 : Quad) : (i0 :: is).length % 2 ≠ 0 := by
  rw [List.length_cons]; omega

theorem macroInts_cons_of_even (i0 : Quad) :
    macroInts (i0 :: is) = .ldw (zextQuad i0) :: (intWords is).map .foldw := by
  rw [macroInts, if_neg (length_cons_mod_two_ne_zero h i0), ← foldInts_eq_map, ldz32]

theorem hashInts_cons_of_even (t : Tables) (i0 : Quad) :
    hashInts t (i0 :: is) = (intWords is).foldl (wordStep t) (zextQuad i0) := by
  rw [hashInts, if_neg (length_cons_mod_two_ne_zero h i0), ← intSteps_eq_foldl]

end

/-! ### The chars of a string (R166) -/

theorem charCode_ascii {c : Char} (h : c.toNat < 128) : charCode c = some (BitVec.ofNat 16 c.toNat) :=
  if_pos (by omega)

theorem stringCodes_ascii {str : List Char} (h : ∀ c ∈ str, c.toNat < 128) :
    stringCodes str = some (str.map fun c => BitVec.ofNat 16 c.toNat) := by
  induction str with
  | nil => rfl
  | cons c rest ih =>
    obtain ⟨hc, hrest⟩ := List.forall_mem_cons.mp h
    simp [stringCodes, charCode_ascii hc, ih hrest]

end Sys2Proof.Machine
end

section
/-! SUPPORT. The runs of the expansions: a load, head elements, and a list of words (R161, R162, R164, R165). -/

namespace Sys2Proof.Machine

/-- Outside the fault state a load and datapath commands after it run through. -/
theorem execAll_ldw_datapath {s : State} (he : s.status.err = false) (v : Word) {is : List Instr}
    (his : ∀ i ∈ is, isDatapath i = true) :
    execAll (.ldw v :: is) s = .next
      { s with
        w := is.foldl (datapathW s.tables) v
        resps := s.resps ++ List.replicate (1 + is.length) .ack } := by
  rw [execAll_datapath he (List.forall_mem_cons.mpr ⟨rfl, his⟩), List.length_cons, Nat.add_comm 1]
  rfl

/-- Outside the fault state a load, head chars and words run through: the words are folded over the head. -/
theorem execAll_ldw_shh_foldw {s : State} (he : s.status.err = false) (v : Word) (head : List Half)
    (ws : List Word) :
    execAll (.ldw v :: (head.map .shh ++ ws.map .foldw)) s = .next
      { s with
        w := ws.foldl (wordStep s.tables) (head.foldl headHalf v)
        resps := s.resps ++ List.replicate (1 + head.length + ws.length) .ack } := by
  have hdatapath : ∀ i ∈ head.map Instr.shh ++ ws.map .foldw, isDatapath i = true := by
    simp [or_imp, forall_and, isDatapath]
  rw [execAll_ldw_datapath he v hdatapath]
  simp [List.foldl_map, datapathW, Nat.add_assoc]

/-- Outside the fault state a load and words run through. -/
theorem execAll_ldw_foldw {s : State} (he : s.status.err = false) (v : Word) (ws : List Word) :
    execAll (.ldw v :: ws.map .foldw) s = .next
      { s with
        w := ws.foldl (wordStep s.tables) v
        resps := s.resps ++ List.replicate (1 + ws.length) .ack } :=
  execAll_ldw_shh_foldw he v [] ws

/-- The commands of a message are the stream of its whole range (R143). -/
theorem messageStream_eq_hashbStream (bs : List Byte) :
    messageStream bs = hashbStream (fun a => bs.getD a 0#8) 0 bs.length := by
  have hbs : bs = (List.range bs.length).map fun n => bs.getD (0 + n) 0#8 :=
    List.ext_getElem (by simp) fun n hn _ => by simp [hn]
  rw [← messageStream_range, ← hbs]

theorem foldl_datapathW_messageStream (t : Tables) (bs : List Byte) (w : Word) :
    (messageStream bs).foldl (datapathW t) w = hashByteList t bs w := by
  rw [messageStream_eq_hashbStream, foldl_datapathW_hashbStream, hashByteList]

theorem length_messageStream (bs : List Byte) : (messageStream bs).length = bs.length % 8 + bs.length / 8 := by
  simp [messageStream_eq_hashbStream, hashbStream]

theorem execAll_macroBytes {s : State} (he : s.status.err = false) (seed : Word) (bs : List Byte) :
    execAll (macroBytes seed bs) s = .next
      { s with
        w := hashByteList s.tables bs seed
        resps := s.resps ++ List.replicate (1 + bs.length % 8 + bs.length / 8) .ack } := by
  rw [macroBytes_eq_cons_messageStream, execAll_ldw_datapath he seed (isDatapath_of_mem_messageStream bs),
    foldl_datapathW_messageStream, length_messageStream, Nat.add_assoc]

theorem execAll_macroChars {s : State} (he : s.status.err = false) (cs : List Half) :
    execAll (macroChars cs) s = .next
      { s with
        w := hashChars s.tables cs
        resps := s.resps ++ List.replicate (1 + cs.length % 4 + cs.length / 4) .ack } := by
  have hhead : (cs.take (cs.length % 4)).length = cs.length % 4 := by
    rw [List.length_take]; omega
  have hwords : (charWords (cs.drop (cs.length % 4))).length = cs.length / 4 := by
    rw [length_charWords, List.length_drop]; omega
  rw [macroChars, clrw, foldChars_eq_map, execAll_ldw_shh_foldw he, hhead, hwords, ← charSteps_eq_foldl, hashChars]

theorem execAll_macroInts {s : State} (he : s.status.err = false) (is : List Quad) :
    execAll (macroInts is) s = .next
      { s with
        w := hashInts s.tables is
        resps := s.resps ++ List.replicate (1 + is.length / 2) .ack } := by
  rcases even_or_cons_even is with h | ⟨i0, rest, rfl, h⟩
  · rw [macroInts_of_even h, execAll_ldw_foldw he, hashInts_of_even h, length_intWords]
  · have hpairs : (i0 :: rest).length / 2 = rest.length / 2 := by
      rw [List.length_cons]; omega
    rw [macroInts_cons_of_even h, execAll_ldw_foldw he, hashInts_cons_of_even h, length_intWords, hpairs]

end Sys2Proof.Machine
end

section
/-! SUPPORT. The byte hash of a serialization: a head shorter than a word, and whole words after it (R167). -/

namespace Sys2Proof.Machine

/-- The head bytes of a word's serialization leave that word, whatever stood before. -/
theorem foldl_headByte_be64 (w l : Word) : (be64 l).foldl headByte w = l :=
  (foldl_headByte_eight w ..).trans (memRead8_be64 l)

/-- Four head bytes from `W = 0` are the zero-extending load of the integer (R164). -/
theorem foldl_headByte_be32 (i : Quad) : (be32 i).foldl headByte 0#64 = zextQuad i :=
  calc (be32 i).foldl headByte 0#64
    _ = (be32 0#32 ++ be32 i).foldl headByte 0#64 := rfl
    _ = 0#32 ++ i := by rw [← be64_append, foldl_headByte_be64]
    _ = zextQuad i := (BitVec.setWidth_eq_append (by decide)).symm

/-- A head char is its two bytes, high byte first (R124). -/
theorem headHalf_eq_foldl_be16 (w : Word) (c : Half) : headHalf w c = (be16 c).foldl headByte w := by
  have hbytes : c.extractLsb' 8 8 ++ c.extractLsb' 0 8 = c :=
    BitVec.extractLsb'_append_extractLsb' (w := 8) (len := 8)
  exact (congrArg (headHalf w) hbytes).symm.trans (headHalf_append w _ _)

theorem foldl_headHalf (w : Word) (cs : List Half) : cs.foldl headHalf w = (cs.flatMap be16).foldl headByte w := by
  simp only [List.foldl_flatMap, ← headHalf_eq_foldl_be16]

/-- The bytes of words are sent as those words. -/
theorem foldBytes_flatMap_be64 (ws : List Word) : foldBytes (ws.flatMap be64) = ws.map .foldw := by
  induction ws with
  | nil => rfl
  | cons l rest ih =>
    rw [List.map_cons, ← ih]
    exact congrArg (Instr.foldw · :: foldBytes (rest.flatMap be64)) (memRead8_be64 l)

/-- A head of fewer than eight bytes and then whole words: head steps and word steps (R146). -/
theorem hashByteList_head_words (t : Tables) {head : List Byte} (h : head.length < 8) (ws : List Word)
    (seed : Word) :
    hashByteList t (head ++ ws.flatMap be64) seed = ws.foldl (wordStep t) (head.foldl headByte seed) := by
  have hlen : (ws.flatMap be64).length = ws.length * 8 := by simp [List.length_flatMap, be64]
  have hmod : (head ++ ws.flatMap be64).length % 8 = head.length := by
    rw [List.length_append, hlen]; omega
  rw [← foldl_datapathW_messageStream, messageStream, hmod, List.take_left, List.drop_left,
    foldBytes_flatMap_be64, List.foldl_append, foldl_datapathW_shb, List.foldl_map]
  rfl

theorem hashChars_eq_hashByteList (t : Tables) (cs : List Half) :
    hashChars t cs = hashByteList t (cs.flatMap be16) 0#64 := by
  have hhead : ((cs.take (cs.length % 4)).flatMap be16).length < 8 := by
    simp [List.length_flatMap, be16]; omega
  have hgroups : (cs.drop (cs.length % 4)).length % 4 = 0 := by
    rw [List.length_drop]; omega
  have hbytes : cs.flatMap be16 =
      (cs.take (cs.length % 4)).flatMap be16 ++ (charWords (cs.drop (cs.length % 4))).flatMap be64 := by
    rw [charWords_flatMap_be64 hgroups, ← List.flatMap_append, List.take_append_drop]
  rw [hbytes, hashByteList_head_words t hhead, ← foldl_headHalf, ← charSteps_eq_foldl, hashChars]

theorem hashInts_eq_hashByteList (t : Tables) (is : List Quad) :
    hashInts t is = hashByteList t (is.flatMap be32) 0#64 := by
  rcases even_or_cons_even is with h | ⟨i0, rest, rfl, h⟩
  · rw [hashInts_of_even h, ← intWords_flatMap_be64 h]
    exact (hashByteList_head_words t (head := []) (by decide) _ _).symm
  · rw [hashInts_cons_of_even h, List.flatMap_cons, ← intWords_flatMap_be64 h, ← foldl_headByte_be32]
    exact (hashByteList_head_words t (by simp [be32]) _ _).symm

theorem hashLongs_eq_hashByteList (t : Tables) (ls : List Word) :
    hashLongs t ls = hashByteList t (ls.flatMap be64) 0#64 :=
  (hashByteList_head_words t (head := []) (by decide) ls 0#64).symm

end Sys2Proof.Machine
end

section
/-! The typed macros: what they leave in `W`, and the byte hash they equal (R160 to R167). -/

namespace Sys2Proof.Machine

/-- Settles O58: each expansion is a load, a head and a list of words; `HASH.STR` is `HASH.CHARS` of the codes. -/
theorem macrosComputeTheirFunctions : Obligations.MacrosComputeTheirFunctions := by
  refine ⟨fun _ seed bs he => execAll_macroBytes he seed bs, fun _ cs he => execAll_macroChars he cs,
    fun _ is he => execAll_macroInts he is, fun _ ls he => execAll_ldw_foldw he 0#64 ls,
    fun s str cs he hcodes => ⟨macroChars cs, ?_, execAll_macroChars he cs⟩, fun _ => stringCodes_ascii⟩
  rw [macroStr, hcodes, Option.map_some]

/-- Settles O59: a serialization is a head shorter than a word and the packed words after it; the equations hold
over any tables. -/
theorem typedHashesEqualTheByteHashOfTheirSerialization :
    Obligations.TypedHashesEqualTheByteHashOfTheirSerialization :=
  ⟨fun _ => hashChars_eq_hashByteList _, fun _ => hashInts_eq_hashByteList _,
    fun _ => hashLongs_eq_hashByteList _⟩

end Sys2Proof.Machine
end

section
/-! SUPPORT. The read-out commands RDW and RDSTAT, and the value of STATUS before and after a fault (R25, R180,
R181). -/

namespace Sys2Proof.Machine

/-- A word with the opcode of RDW or RDSTAT and a non-zero operand spells no command (R82 (d)). -/
theorem decode_ne_ok_of_readout_operand {c : Cmd} (hop : opOf c = 0x10#8 ∨ opOf c = 0x11#8)
    (hmbz : immOf c ≠ 0#64) (i : Instr) : decode c ≠ .ok i :=
  (decode_ne_ok_iff c).mpr (.inr (.inr (.inr ⟨hop, hmbz⟩))) i

/-- RDSTAT is not guarded: it answers STATUS in every state (R76 step 1). -/
theorem exec_rdstat (s : State) : exec .rdstat s = .next (respond s (.data (statusWord s.status))) := rfl

/-- A read-out command answers and changes nothing, in and outside the fault state. -/
theorem readout_adds_response {i : Instr} {s t : State} (hi : i = .rdw ∨ i = .rdstat)
    (h : exec i s = .next t) : ∃ r, t = respond s r := by
  rcases hi with rfl | rfl
  · cases he : s.status.err with
    | true =>
      rw [exec_of_err he Instr.noConfusion] at h
      cases h
      exact ⟨_, rfl⟩
    | false =>
      rw [exec_rdw_of_ok he] at h
      cases h
      exact ⟨_, rfl⟩
  · cases h
    exact ⟨_, rfl⟩

/-- Before any fault STATUS holds its reset value, which reads as 0 (R25, R32). -/
theorem Inv.statusWord_of_ok {s : State} (hinv : Inv s) (he : s.status.err = false) :
    statusWord s.status = 0#64 := by
  have hreset : s.status = Status.reset :=
    hinv.statusLegal.resolve_right fun ⟨herr, _⟩ => Bool.false_ne_true (he.symm.trans herr)
  rw [hreset, statusWord_reset]

/-- After a fault STATUS is `0x1 | (CAUSE << 8) | (FOP << 16)` (R25). -/
theorem statusWord_of_err {st : Status} (he : st.err = true) :
    statusWord st = 1#64 ||| ((causeCode st.cause).setWidth 64 <<< 8) ||| (st.fop.setWidth 64 <<< 16) := by
  rw [statusWord_eq_or, he]
  rfl

end Sys2Proof.Machine
end

section
/-! The read-out commands RDW and RDSTAT (R180, R181). -/

namespace Sys2Proof.Machine

/-- Settles O26: the ill-formed word is illegal by its operand, and refused in the fault state; the values before
and after a fault are those of STATUS there. -/
theorem rdstatAnswersStatusInEveryState : Obligations.RdstatAnswersStatusInEveryState := by
  refine ⟨exec_rdstat, fun s c he hop hmbz => ?_, fun s c he hop hmbz => ?_, fun s hinv he => ?_,
    fun s he => ?_⟩
  · exact hop ▸ runCmd_of_illegal he (decode_ne_ok_of_readout_operand (.inr hop) hmbz)
  · exact runCmd_of_err he (decode_ne_ok_of_readout_operand (.inr hop) hmbz .rdstat)
  · rw [exec_rdstat, hinv.statusWord_of_ok he]
    rfl
  · rw [exec_rdstat, statusWord_of_err he]
    rfl

/-- Settles O30: the next state is the old one with a response added. -/
theorem readoutCommandsChangeNothing : Obligations.ReadoutCommandsChangeNothing := by
  intro i s t hi h
  obtain ⟨r, rfl⟩ := readout_adds_response hi h
  exact ⟨rfl, rfl, rfl, rfl, rfl, rfl, fun _ => rfl, r, rfl⟩

/-- Settles O25, outside the fault state and in it; the ill-formed word is illegal by its operand. -/
theorem rdwAnswersTheAccumulator : Obligations.RdwAnswersTheAccumulator :=
  ⟨fun _ he => exec_rdw_of_ok he, fun _ he => exec_of_err he Instr.noConfusion,
    fun _ _ he hop hmbz => hop ▸ runCmd_of_illegal he (decode_ne_ok_of_readout_operand (.inl hop) hmbz)⟩

end Sys2Proof.Machine
end

section
/-! SUPPORT. A command outside the fault state: it acts or it raises, never both (R204, R208). -/

namespace Sys2Proof.Machine

/-- Outside the fault state a command writes at most `W` and is answered ACK or DATA, or it is a HASHB that raises
InvalidArgument and does nothing else (R142, R208). -/
theorem exec_acts_or_raises {s : State} (he : s.status.err = false) (i : Instr) :
    (∃ v r, exec i s = .next (respond (setW s v) r) ∧
      (r = .ack ∨ r = .data s.w ∨ r = .data (statusWord s.status))) ∨
    (opcodeOf i = 0x08#8 ∧ exec i s = .next (raise .invalidArgument (opcodeOf i) s)) := by
  cases i with
  | ldw | shb | shh | foldw => exact .inl ⟨_, _, exec_datapath he rfl, .inl rfl⟩
  | hashb off len =>
    rcases Nat.lt_or_ge s.seqLen (off.toNat + len.toNat) with hgt | hle
    · exact .inr ⟨rfl, exec_hashb_of_gt he hgt⟩
    · exact .inl ⟨_, _, exec_hashb_of_le he hle, .inl rfl⟩
  | rdw => exact .inl ⟨s.w, _, exec_rdw_of_ok he, .inr (.inl rfl)⟩
  | rdstat => exact .inl ⟨s.w, _, exec_rdstat s, .inr (.inr rfl)⟩

end Sys2Proof.Machine
end

section
/-! SUPPORT. The fault state (R205, R206): every word is answered from STATUS alone. -/

namespace Sys2Proof.Machine

theorem decode_eq_rdstat_iff {c : Cmd} : decode c = .ok .rdstat ↔ c = 0x110000000000000000#72 := by
  have hword : encode .rdstat = 0x110000000000000000#72 := by decide
  rw [decode_eq_ok_iff, hword, eq_comm]

section
variable {s : State} (he : s.status.err = true)
include he

/-- In the fault state a word gets its response and changes nothing else (R205). -/
theorem runCmd_in_fault_state (c : Cmd) : runCmd c s = .next (respond s (responseTo s c)) := by
  by_cases hc : decode c = .ok .rdstat
  · rw [runCmd_of_ok hc, exec_rdstat, responseTo, if_pos hc]
  · rw [runCmd_of_err he hc, responseTo, if_neg hc, if_pos he]

/-- In the fault state no response depends on `W` (R206). -/
theorem responseTo_setW_of_err (x : Word) (c : Cmd) : responseTo (setW s x) c = responseTo s c := by
  simp [responseTo, he]

/-- In the fault state an action other than a reset keeps STATUS and `W` (R205, R207). -/
theorem applyAction_keeps_of_err {a : HostAction} {t : State} (ha : ∀ p, a ≠ .reset p)
    (h : applyAction a s = .next t) : t.status = s.status ∧ t.w = s.w := by
  cases a with
  | cmd c =>
    cases (runCmd_in_fault_state he c).symm.trans h
    exact ⟨rfl, rfl⟩
  | attach bytes =>
    obtain ⟨_, rfl⟩ := attachSeq_next h
    exact ⟨rfl, rfl⟩
  | reset p => exact absurd rfl (ha p)

/-- In the fault state an action other than a reset neither reads nor writes `W` (R206). -/
theorem applyAction_setW_of_err {a : HostAction} {t : State} (x : Word) (ha : ∀ p, a ≠ .reset p)
    (h : applyAction a s = .next t) : applyAction a (setW s x) = .next (setW t x) := by
  cases a with
  | cmd c =>
    cases (runCmd_in_fault_state he c).symm.trans h
    have hx := runCmd_in_fault_state (s := setW s x) he c
    rwa [responseTo_setW_of_err he] at hx
  | attach bytes =>
    obtain ⟨hlen, rfl⟩ := attachSeq_next h
    exact attachSeq_of_le (s := setW s x) hlen
  | reset p => exact absurd rfl (ha p)

end

end Sys2Proof.Machine
end

section
/-! SUPPORT. Runs of host actions (R10, R215): the first action of a run, the invariants of a run, and what a run
without a reset keeps (R214). -/

namespace Sys2Proof.Machine

theorem applyAll_cons_of_next {a : HostAction} {rest : List HostAction} {s t : State}
    (h : applyAction a s = .next t) : applyAll (a :: rest) s = applyAll rest t := by
  rw [applyAll, h]

/-- A run that completes completed its first action. -/
theorem applyAll_cons_next {a : HostAction} {rest : List HostAction} {s t : State}
    (h : applyAll (a :: rest) s = .next t) : ∃ u, applyAction a s = .next u ∧ applyAll rest u = .next t := by
  rcases applyAction_answers a s with ⟨u, hu⟩ | ⟨_, _, _, hrefused⟩
  · exact ⟨u, hu, (applyAll_cons_of_next hu).symm.trans h⟩
  · simp [applyAll, hrefused] at h

/-- What every action of a run keeps, the run keeps. -/
theorem applyAll_invariant {P : State → Prop} {acts : List HostAction} {s t : State}
    (hkeep : ∀ a ∈ acts, ∀ u v, applyAction a u = .next v → P u → P v)
    (h : applyAll acts s = .next t) (hs : P s) : P t := by
  induction acts generalizing s with
  | nil => cases h; exact hs
  | cons a rest ih =>
    obtain ⟨hfirst, hrest⟩ := List.forall_mem_cons.mp hkeep
    obtain ⟨u, hu, ht⟩ := applyAll_cons_next h
    exact ih hrest ht (hfirst s u hu hs)

/-- A list of instructions is the run of their words. -/
theorem applyAll_map_encode (is : List Instr) (s : State) :
    applyAll (is.map fun i => .cmd (encode i)) s = execAll is s := by
  induction is generalizing s with
  | nil => rfl
  | cons i rest ih =>
    obtain ⟨t, ht⟩ := exec_answers i s
    have hcmd : applyAction (.cmd (encode i)) s = .next t := (runCmd_of_ok (decode_encode i) s).trans ht
    rw [List.map_cons, applyAll_cons_of_next hcmd, execAll_cons_of_next ht, ih]

theorem CmdEffect.host {c : Cmd} {s t : State} (h : CmdEffect c s t) : t.host = s.host := by
  cases h <;> rfl

/-- `t` differs from `s` at most in `W`, the sequence, the responses, and by a fault in STATUS. -/
structure SameContext (s t : State) : Prop where
  cfg : t.cfg = s.cfg
  tables : t.tables = s.tables
  host : t.host = s.host
  status : t.status.err = false → t.status = s.status

/-- A command keeps the context: one that changes STATUS has faulted (R204). -/
theorem SameContext.cmdEffect {c : Cmd} {s u v : State} (h : SameContext s u) (hc : CmdEffect c u v) :
    SameContext s v := by
  obtain ⟨hcfg, htables, _⟩ := hc.frame
  refine ⟨hcfg.trans h.cfg, htables.trans h.tables, hc.host.trans h.host, fun hv => ?_⟩
  rcases hc.status with hkept | ⟨_, _, _, hfault⟩
  · exact hkept.trans (h.status (hkept ▸ hv))
  · simp [hfault] at hv

/-- A run without a reset keeps the context. -/
theorem sameContext_of_applyAll {acts : List HostAction} {s t : State} (hacts : ∀ p, HostAction.reset p ∉ acts)
    (h : applyAll acts s = .next t) : SameContext s t := by
  refine applyAll_invariant (fun a ha u v hv hu => ?_) h ⟨rfl, rfl, rfl, fun _ => rfl⟩
  cases a with
  | cmd c => exact hu.cmdEffect (cmdEffect_of_runCmd hv)
  | attach bytes =>
    obtain ⟨_, rfl⟩ := attachSeq_next hv
    exact { hu with }
  | reset p => exact absurd ha (hacts p)

/-- A list of commands keeps the sequence (R51). -/
theorem execAll_keeps_seq {is : List Instr} {s t : State} (h : execAll is s = .next t) :
    t.seq = s.seq ∧ t.seqLen = s.seqLen := by
  rw [← applyAll_map_encode] at h
  refine applyAll_invariant (P := fun u => u.seq = s.seq ∧ u.seqLen = s.seqLen)
    (List.forall_mem_map.mpr fun i _ u v hv ⟨hseq, hlen⟩ => ?_) h ⟨rfl, rfl⟩
  obtain ⟨_, _, hseq', hlen'⟩ := (cmdEffect_of_runCmd hv).frame
  exact ⟨hseq'.trans hseq, hlen'.trans hlen⟩

/-- Loading the saved `W` back restores all but the sequence and the responses (R214). -/
theorem SameContext.exec_ldw {s t : State} (h : SameContext s t) (he : t.status.err = false) :
    exec (.ldw s.w) t = .next
      { s with seq := t.seq, seqLen := t.seqLen, resps := t.resps ++ [.ack] } := by
  rw [exec_ldw_of_ok he, ← h.cfg, ← h.tables, ← h.host, ← h.status he]
  rfl

end Sys2Proof.Machine
end

section
/-! Faults, the fault state, the saved context and the attach (R204 to R209, R214, R215). -/

namespace Sys2Proof.Machine

/-- Settles O33: a word that decodes acts or raises InvalidArgument, one that does not raises IllegalCommand. -/
theorem faultEntryRecordsTheCauseAndChangesNothingElse :
    Obligations.FaultEntryRecordsTheCauseAndChangesNothingElse := by
  refine ⟨fun _ _ _ => rfl, fun c s t he h => ?_⟩
  cases hd : decode c with
  | ok i =>
    have hexec : exec i s = .next t := (runCmd_of_ok hd s).symm.trans h
    rw [opOf_of_decode hd]
    rcases exec_acts_or_raises he i with ⟨v, r, hact, hr⟩ | ⟨hop, hraise⟩
    · cases hact.symm.trans hexec
      exact .inl ⟨rfl, r, hr, rfl⟩
    · cases hraise.symm.trans hexec
      exact .inr (.inr ⟨hop, rfl⟩)
  | error e =>
    cases (runCmd_of_illegal he fun i => by simp [hd]).symm.trans h
    exact .inr (.inl rfl)

/-- Settles O34: RDSTAT is the one word that the `ERR` test lets through. -/
theorem faultStateRefusesEveryCommandButRdstat : Obligations.FaultStateRefusesEveryCommandButRdstat :=
  fun s _ he => ⟨fun hc => runCmd_of_err he (mt decode_eq_rdstat_iff.mp hc),
    fun hc => runCmd_of_ok (decode_eq_rdstat_iff.mpr hc) s⟩

/-- Settles O35: the values of STATUS and `W` are an invariant of the run, as STATUS is that of a fault. -/
theorem firstFaultIsKeptUntilReset : Obligations.FirstFaultIsKeptUntilReset := by
  intro acts s t he hacts h
  refine applyAll_invariant (P := fun u => u.status = s.status ∧ u.w = s.w)
    (fun a ha u v hv ⟨hstatus, hw⟩ => ?_) h ⟨rfl, rfl⟩
  obtain ⟨hstatus', hw'⟩ := applyAction_keeps_of_err (hstatus ▸ he) (fun p hp => hacts p (hp ▸ ha)) hv
  exact ⟨hstatus'.trans hstatus, hw'.trans hw⟩

/-- Settles O36: of the ways a step can change STATUS only a reset starts in the fault state. -/
theorem onlyResetLeavesTheFaultState : Obligations.OnlyResetLeavesTheFaultState := by
  refine ⟨fun s t he h ht => ?_, fun s p rest hs => ?_, fun s c he => ?_⟩
  · rcases step_status_cases h with hkept | ⟨_, _, _, _, hok, _⟩ | ⟨p, rest, hs, _⟩
    · simp [hkept, he] at ht
    · simp [he] at hok
    · exact ⟨p, rest, hs⟩
  · exact ⟨_, step_of_cons hs, rfl, rfl, rfl⟩
  · exact ⟨_, runCmd_in_fault_state he c, rfl, rfl⟩

/-- Settles O38, by induction on the run: up to the first reset the two states differ in `W` alone, and the reset
makes them equal. -/
theorem accumulatorIsUnobservableAfterAFault : Obligations.AccumulatorIsUnobservableAfterAFault := by
  intro acts s t x he h
  induction acts generalizing s with
  | nil =>
    cases h
    exact ⟨setW t x, rfl, rfl, rfl, by simp⟩
  | cons a rest ih =>
    obtain ⟨v, hv, ht⟩ := applyAll_cons_next h
    by_cases ha : ∃ p, a = .reset p
    · obtain ⟨p, rfl⟩ := ha
      cases hv
      exact ⟨t, ht, rfl, rfl, fun _ => rfl⟩
    · have hne : ∀ p, a ≠ .reset p := not_exists.mp ha
      obtain ⟨hstatus, _⟩ := applyAction_keeps_of_err he hne hv
      obtain ⟨u, hu, hresps, hust, hreset⟩ := ih v (hstatus ▸ he) ht
      refine ⟨u, (applyAll_cons_of_next (applyAction_setW_of_err he x hne hv)).trans hu, hresps, hust, ?_⟩
      rintro ⟨p, hp⟩
      exact hreset ⟨p, (List.mem_cons.mp hp).resolve_left (hne p).symm⟩

/-- Settles O39: a run without a reset keeps the context, and a list of commands the sequence too. -/
theorem savingAndRestoringTheAccumulatorRestoresTheContext :
    Obligations.SavingAndRestoringTheAccumulatorRestoresTheContext := by
  refine ⟨fun is s t _ h he => ?_, fun acts s t _ hacts h he => (sameContext_of_applyAll hacts h).exec_ldw he⟩
  obtain ⟨hseq, hlen⟩ := execAll_keeps_seq h
  have hcontext : SameContext s t :=
    sameContext_of_applyAll (by simp) ((applyAll_map_encode is s).trans h)
  rw [hcontext.exec_ldw he, hseq, hlen]

/-- Settles O42: the cells of the list read back its bytes and are in the canonical form. -/
theorem attachReplacesTheSequence : Obligations.AttachReplacesTheSequence := by
  intro s bytes rest hs hlen
  refine ⟨memOfBytes 0 bytes, (step_of_cons hs).trans (attachSeq_of_le hlen), fun a ha => ?_,
    memOfBytes_wf 0 bytes, memOfBytes_below bytes⟩
  simpa using memByte_memOfBytes (base := 0) ha

end Sys2Proof.Machine
end

section
/-! SUPPORT. What the head loop keeps of its seed (R244), and the ranges that read no table (R123, R146). -/

namespace Sys2Proof.Machine

/-- The head loop shifts its seed out at the top and does not mix with it. -/
theorem headLoop_eq_shiftLeft_xor (A : Nat → Byte) (n s : Nat) (w : Word) :
    headLoop A n s w = (w <<< (8 * n)) ^^^ headLoop A n s 0#64 := by
  simpa only [headLoop_eq_foldl, List.foldl_map, List.length_map, List.length_range] using
    foldl_headByte w ((List.range n).map fun k => A (s + k))

/-- A left shift discards the bits that it moves beyond the top. -/
theorem shiftLeft_congr_low {m n : Nat} {v w : BitVec m} (h : ∀ b, b < m - n → v.getLsbD b = w.getLsbD b) :
    v <<< n = w <<< n := by
  apply BitVec.eq_of_getLsbD_eq
  intro i hi
  rw [BitVec.getLsbD_shiftLeft, BitVec.getLsbD_shiftLeft]
  by_cases hlow : i < n
  · simp [hlow]
  · rw [h (i - n) (by omega)]

/-- `HashBytes` depends on the bits of the seed that its head bytes do not shift out (R244). -/
theorem hashBytes_congr_seed {t : Tables} {A : Nat → Byte} {off len : Nat} {v w : Word}
    (h : ∀ b, b < 64 - 8 * (len % 8) → v.getLsbD b = w.getLsbD b) :
    hashBytes t A off len v = hashBytes t A off len w := by
  have hhead : headLoop A (len % 8) off v = headLoop A (len % 8) off w := by
    rw [headLoop_eq_shiftLeft_xor A _ off v, shiftLeft_congr_low h, ← headLoop_eq_shiftLeft_xor]
  rw [hashBytes, hhead, hashBytes]

/-- A range of fewer than eight bytes is head bytes alone. -/
theorem hashBytes_of_lt (t : Tables) (A : Nat → Byte) (off : Nat) {len : Nat} (seed : Word) (h : len < 8) :
    hashBytes t A off len seed = headLoop A len off seed := by
  rw [hashBytes, Nat.div_eq_of_lt h, Nat.mod_eq_of_lt h, wordLoop]

end Sys2Proof.Machine
end

section
/-! Reset and hazards: chunk boundaries, the seed of a range with head bytes, the reset sequence (R231, R243,
R244). -/

namespace Sys2Proof.Machine

/-- Settles O23 by the numbers of R148: the 19 bytes 0x00 to 0x12 in one call, and cut after the first 8. -/
theorem chunkBoundaryIndependenceIsFalse : Obligations.ChunkBoundaryIndependenceIsFalse := by
  intro hlaw
  obtain ⟨_, _, hone, _, hchain⟩ := chainingEqualsOneCallForWholeWordTails
  have hequal : 0x50E5AA9411C2D878#64 = 0x3EFE8C9EB68E20B4#64 :=
    hone.symm.trans ((hlaw [0, 1, 2, 3, 4, 5, 6, 7] [8, 9, 10, 11, 12, 13, 14, 15, 16, 17, 18] 0#64).trans hchain)
  exact absurd hequal (by decide)

/-- Settles O24: the head loop shifts the top of the seed out, and alone makes up a range without a whole group. -/
theorem headDiscardsTheTopSeedBits : Obligations.HeadDiscardsTheTopSeedBits :=
  ⟨fun _ _ _ _ _ _ => hashBytes_congr_seed,
    fun t t' A off _ seed h => (hashBytes_of_lt t A off seed h).trans (hashBytes_of_lt t' A off seed h).symm⟩

/-- Settles O41: the step of a reset is `resetEngine`, whose tables are those that the invariant names. -/
theorem resetSequenceRebuildsAndTouchesNoSequence : Obligations.ResetSequenceRebuildsAndTouchesNoSequence := by
  refine ⟨fun s p rest hs => step_of_cons hs, fun s t p hinv h => ?_⟩
  cases h
  exact (resetEngine_tables s).trans hinv.tablesBuilt.symm

end Sys2Proof.Machine
end

section
/-! The steps that run no command: the idle engine (R210, R213) and the attach over `SEQ_MAX` (R215). -/

namespace Sys2Proof.Machine

/-- Settles O9: with no action pending the step is the idle step, which answers the state it was given. -/
theorem idleEngineKeepsEverything : Obligations.IdleEngineKeepsEverything :=
  fun _ hs => step_of_nil hs

/-- Settles O43: the step applies the pending attach, and taking it off the list leaves `SEQ_MAX` as it was. -/
theorem overlongAttachIsRefusedByName : Obligations.OverlongAttachIsRefusedByName := by
  intro s bytes rest hs hlen
  calc step s = attachSeq bytes (setHost s rest) := step_of_cons hs
    _ = .refused .attachOverSeqMax := attachSeq_of_gt hlen

end Sys2Proof.Machine
end
